-- ==== Sys2Proof/Word.lean ====
section
/-!
DEFINITION. Word.lean: the word types of the core and the names of its registers.

Every register and memory value is an unsigned bit vector (R10): 8 bits for a register, a memory byte or a timer, 16 bits
for PC, I, a stack entry or an instruction word, 12 bits for the nnn field. A register index is one of sixteen names (R22).
-/

namespace Sys2Proof

/-- An 8-bit value: a general register, a memory byte, a timer, the nn field (R20, R82). -/
abbrev Byte := BitVec 8

/-- A 16-bit value: PC, I, a stack entry, an instruction word (R20, R81). -/
abbrev Word := BitVec 16

/-- The 12-bit nnn field of an instruction word (R82). -/
abbrev Addr12 := BitVec 12

/-- A general register V0..VF, named by its index (R22). -/
abbrev Reg := Fin 16

/-- VF, the flag register (R23). -/
abbrev VF : Reg := 15

end Sys2Proof
end

