-- ==== Sys2Proof/Syntax.lean ====
section
/-!
DEFINITION. Syntax.lean: the 34 instructions of the core, one constructor for each row of spec/opcode_table.json (R85).

Register fields are `Reg`, constants are bit vectors of the width of their field (R82, R83). The sprite height of DXYN is a
count, so it is a `Nat`; that it is at most 15 is WellFormed's check. The spec names an instruction by its pattern; the
constructors are named after the assembly syntax of R90, and each docstring gives the pattern.
-/

namespace Sys2Proof

/-- The instructions of the core (R85). -/
inductive Instr where
  /-- `00E0` CLS (R100). -/
  | cls
  /-- `00EE` RET (R120). -/
  | ret
  /-- `1NNN` JP addr (R121). -/
  | jp (nnn : Addr12)
  /-- `2NNN` CALL addr (R122). -/
  | call (nnn : Addr12)
  /-- `3XNN` SE Vx, byte (R123). -/
  | seImm (x : Reg) (nn : Byte)
  /-- `4XNN` SNE Vx, byte (R124). -/
  | sneImm (x : Reg) (nn : Byte)
  /-- `5XY0` SE Vx, Vy (R125). -/
  | seReg (x y : Reg)
  /-- `6XNN` LD Vx, byte (R140). -/
  | ldImm (x : Reg) (nn : Byte)
  /-- `7XNN` ADD Vx, byte (R141). -/
  | addImm (x : Reg) (nn : Byte)
  /-- `8XY0` LD Vx, Vy (R142). -/
  | ldReg (x y : Reg)
  /-- `8XY1` OR Vx, Vy (R143). -/
  | orReg (x y : Reg)
  /-- `8XY2` AND Vx, Vy (R144). -/
  | andReg (x y : Reg)
  /-- `8XY3` XOR Vx, Vy (R145). -/
  | xorReg (x y : Reg)
  /-- `8XY4` ADD Vx, Vy (R146). -/
  | addReg (x y : Reg)
  /-- `8XY5` SUB Vx, Vy (R147). -/
  | subReg (x y : Reg)
  /-- `8XY6` SHR Vx, Vy (R148). -/
  | shr (x y : Reg)
  /-- `8XY7` SUBN Vx, Vy (R149). -/
  | subnReg (x y : Reg)
  /-- `8XYE` SHL Vx, Vy (R150). -/
  | shl (x y : Reg)
  /-- `9XY0` SNE Vx, Vy (R126). -/
  | sneReg (x y : Reg)
  /-- `ANNN` LD I, addr (R170). -/
  | ldI (nnn : Addr12)
  /-- `BNNN` JP V0, addr (R127). -/
  | jpV0 (nnn : Addr12)
  /-- `CXNN` RND Vx, byte (R151). -/
  | rnd (x : Reg) (nn : Byte)
  /-- `DXYN` DRW Vx, Vy, nibble (R101); `n` is the number of rows. -/
  | drw (x y : Reg) (n : Nat)
  /-- `EX9E` SKP Vx (R190). -/
  | skp (x : Reg)
  /-- `EXA1` SKNP Vx (R191). -/
  | sknp (x : Reg)
  /-- `FX07` LD Vx, DT (R192). -/
  | ldVxDT (x : Reg)
  /-- `FX0A` LD Vx, K (R193). -/
  | ldVxK (x : Reg)
  /-- `FX15` LD DT, Vx (R194). -/
  | ldDTVx (x : Reg)
  /-- `FX18` LD ST, Vx (R195). -/
  | ldSTVx (x : Reg)
  /-- `FX1E` ADD I, Vx (R171). -/
  | addI (x : Reg)
  /-- `FX29` LD F, Vx (R172). -/
  | ldF (x : Reg)
  /-- `FX33` LD B, Vx (R173). -/
  | ldB (x : Reg)
  /-- `FX55` LD [I], Vx (R174); stores V0..Vx. -/
  | storeRegs (x : Reg)
  /-- `FX65` LD Vx, [I] (R175); loads V0..Vx. -/
  | loadRegs (x : Reg)
  deriving DecidableEq, Repr

end Sys2Proof
end

