-- ==== Sys2Proof/Decode.lean ====
section
/-!
DEFINITION. Decode.lean: the fields of an instruction word (R82), the decoder (R85, R86), the encoder, and the opcode table
as rows of pattern and mask.

The decoder dispatches on the category and then on sub-fields, and every fixed bit must match (R85; D14, log entry 6). A word
that matches no row decodes to `none`, which the step reports as InvalidOpcode (R86).
-/

namespace Sys2Proof

/-! ## Fields (R82) -/

/-- category: w[15:12]. -/
def catOf (w : Word) : BitVec 4 := w.extractLsb' 12 4

/-- x: w[11:8], a register index. -/
def xOf (w : Word) : Reg := (w.extractLsb' 8 4).toFin

/-- y: w[7:4], a register index. -/
def yOf (w : Word) : Reg := (w.extractLsb' 4 4).toFin

/-- n: w[3:0]. -/
def nOf (w : Word) : BitVec 4 := w.extractLsb' 0 4

/-- nn: w[7:0]. -/
def nnOf (w : Word) : Byte := w.extractLsb' 0 8

/-- nnn: w[11:0]. -/
def nnnOf (w : Word) : Addr12 := w.extractLsb' 0 12

/-- Two bytes as one word, `hi ++ lo`: instruction words are big-endian, the byte at the lower address being bits 15..8
(R55, R81). -/
def wordOfBytes (hi lo : Byte) : Word := hi ++ lo

/-- The byte of a word that stands at the lower address (R55). -/
def hiByte (w : Word) : Byte := w.extractLsb' 8 8

/-- The byte of a word that stands at the higher address (R55). -/
def loByte (w : Word) : Byte := w.extractLsb' 0 8

/-! ## The decoder (R85, R86) -/

/-- Category 0x0: the whole word is fixed. -/
def decode0 (w : Word) : Option Instr :=
  if w = 0x00E0#16 then some .cls
  else if w = 0x00EE#16 then some .ret
  else none

/-- Category 0x8, selected by n. -/
def decode8 (w : Word) : Option Instr :=
  let x := xOf w
  let y := yOf w
  if nOf w = 0x0#4 then some (.ldReg x y)
  else if nOf w = 0x1#4 then some (.orReg x y)
  else if nOf w = 0x2#4 then some (.andReg x y)
  else if nOf w = 0x3#4 then some (.xorReg x y)
  else if nOf w = 0x4#4 then some (.addReg x y)
  else if nOf w = 0x5#4 then some (.subReg x y)
  else if nOf w = 0x6#4 then some (.shr x y)
  else if nOf w = 0x7#4 then some (.subnReg x y)
  else if nOf w = 0xE#4 then some (.shl x y)
  else none

/-- Category 0xE, selected by nn. -/
def decodeE (w : Word) : Option Instr :=
  if nnOf w = 0x9E#8 then some (.skp (xOf w))
  else if nnOf w = 0xA1#8 then some (.sknp (xOf w))
  else none

/-- Category 0xF, selected by nn. -/
def decodeF (w : Word) : Option Instr :=
  let x := xOf w
  if nnOf w = 0x07#8 then some (.ldVxDT x)
  else if nnOf w = 0x0A#8 then some (.ldVxK x)
  else if nnOf w = 0x15#8 then some (.ldDTVx x)
  else if nnOf w = 0x18#8 then some (.ldSTVx x)
  else if nnOf w = 0x1E#8 then some (.addI x)
  else if nnOf w = 0x29#8 then some (.ldF x)
  else if nnOf w = 0x33#8 then some (.ldB x)
  else if nnOf w = 0x55#8 then some (.storeRegs x)
  else if nnOf w = 0x65#8 then some (.loadRegs x)
  else none

/-- Decode (R85): dispatch on category, then on sub-fields. The sixteenth
category, 0xF, is what the other fifteen leave. `none` is the InvalidOpcode of R86. QUIRK plays no part. -/
def decode (w : Word) : Option Instr :=
  if catOf w = 0x0#4 then decode0 w
  else if catOf w = 0x1#4 then some (.jp (nnnOf w))
  else if catOf w = 0x2#4 then some (.call (nnnOf w))
  else if catOf w = 0x3#4 then some (.seImm (xOf w) (nnOf w))
  else if catOf w = 0x4#4 then some (.sneImm (xOf w) (nnOf w))
  else if catOf w = 0x5#4 then (if nOf w = 0x0#4 then some (.seReg (xOf w) (yOf w)) else none)
  else if catOf w = 0x6#4 then some (.ldImm (xOf w) (nnOf w))
  else if catOf w = 0x7#4 then some (.addImm (xOf w) (nnOf w))
  else if catOf w = 0x8#4 then decode8 w
  else if catOf w = 0x9#4 then (if nOf w = 0x0#4 then some (.sneReg (xOf w) (yOf w)) else none)
  else if catOf w = 0xA#4 then some (.ldI (nnnOf w))
  else if catOf w = 0xB#4 then some (.jpV0 (nnnOf w))
  else if catOf w = 0xC#4 then some (.rnd (xOf w) (nnOf w))
  else if catOf w = 0xD#4 then some (.drw (xOf w) (yOf w) (nOf w).toNat)
  else if catOf w = 0xE#4 then decodeE w
  else decodeF w

/-- Why a sequence of bytes yields no instruction. -/
inductive DecodeError where
  /-- Fewer than two bytes stand there: no whole instruction word (R88). -/
  | truncated
  /-- The word matches no row of the opcode map (R86). -/
  | invalidOpcode (w : Word)
  deriving DecidableEq, Repr

/-- Decoding a sequence of bytes: the instruction of its first word, big-endian (R55, R88), and the bytes after it. -/
def decodeBytes : List Byte → Except DecodeError (Instr × List Byte)
  | hi :: lo :: rest =>
    match decode (wordOfBytes hi lo) with
    | some i => .ok (i, rest)
    | none => .error (.invalidOpcode (wordOfBytes hi lo))
  | [_] => .error .truncated
  | [] => .error .truncated

/-! ## The encoder (R84) -/

/-- Format nnn: `cccc NNNN NNNN NNNN`. -/
def encNNN (cat : BitVec 4) (nnn : Addr12) : Word := cat ++ nnn

/-- Format xnn: `cccc XXXX NNNN NNNN`. -/
def encXNN (cat : BitVec 4) (x : Reg) (nn : Byte) : Word := cat ++ (BitVec.ofFin x : BitVec 4) ++ nn

/-- Format xyn: `cccc XXXX YYYY NNNN`. -/
def encXYN (cat : BitVec 4) (x y : Reg) (n : BitVec 4) : Word :=
  cat ++ (BitVec.ofFin x : BitVec 4) ++ (BitVec.ofFin y : BitVec 4) ++ n

/-- Format xfn: `cccc XXXX ffff ffff`, nn being the function selector. -/
def encXFN (cat : BitVec 4) (x : Reg) (f : Byte) : Word := cat ++ (BitVec.ofFin x : BitVec 4) ++ f

/-- The word of a well-formed instruction (R84, R85). -/
def encode : Instr → Word
  | .cls => 0x00E0#16
  | .ret => 0x00EE#16
  | .jp nnn => encNNN 0x1#4 nnn
  | .call nnn => encNNN 0x2#4 nnn
  | .seImm x nn => encXNN 0x3#4 x nn
  | .sneImm x nn => encXNN 0x4#4 x nn
  | .seReg x y => encXYN 0x5#4 x y 0x0#4
  | .ldImm x nn => encXNN 0x6#4 x nn
  | .addImm x nn => encXNN 0x7#4 x nn
  | .ldReg x y => encXYN 0x8#4 x y 0x0#4
  | .orReg x y => encXYN 0x8#4 x y 0x1#4
  | .andReg x y => encXYN 0x8#4 x y 0x2#4
  | .xorReg x y => encXYN 0x8#4 x y 0x3#4
  | .addReg x y => encXYN 0x8#4 x y 0x4#4
  | .subReg x y => encXYN 0x8#4 x y 0x5#4
  | .shr x y => encXYN 0x8#4 x y 0x6#4
  | .subnReg x y => encXYN 0x8#4 x y 0x7#4
  | .shl x y => encXYN 0x8#4 x y 0xE#4
  | .sneReg x y => encXYN 0x9#4 x y 0x0#4
  | .ldI nnn => encNNN 0xA#4 nnn
  | .jpV0 nnn => encNNN 0xB#4 nnn
  | .rnd x nn => encXNN 0xC#4 x nn
  | .drw x y n => encXYN 0xD#4 x y (BitVec.ofNat 4 n)
  | .skp x => encXFN 0xE#4 x 0x9E#8
  | .sknp x => encXFN 0xE#4 x 0xA1#8
  | .ldVxDT x => encXFN 0xF#4 x 0x07#8
  | .ldVxK x => encXFN 0xF#4 x 0x0A#8
  | .ldDTVx x => encXFN 0xF#4 x 0x15#8
  | .ldSTVx x => encXFN 0xF#4 x 0x18#8
  | .addI x => encXFN 0xF#4 x 0x1E#8
  | .ldF x => encXFN 0xF#4 x 0x29#8
  | .ldB x => encXFN 0xF#4 x 0x33#8
  | .storeRegs x => encXFN 0xF#4 x 0x55#8
  | .loadRegs x => encXFN 0xF#4 x 0x65#8

/-- The bytes of a word in memory order, most significant first (R55, R91). -/
def bytesOfWord (w : Word) : List Byte := [hiByte w, loByte w]

/-- The bytes of an instruction in memory order (R91). -/
def encodeBytes (i : Instr) : List Byte := bytesOfWord (encode i)

/-! ## The opcode table (R85) as rows of pattern and mask, for the whole-machine statements -/

/-- One row of the opcode map: a word is of this row when `w AND mask = pattern`. -/
structure OpRow where
  mnemonic : String
  pattern : Word
  mask : Word
  deriving DecidableEq, Repr

/-- The word matches the row on every fixed bit. -/
def OpRow.fits (r : OpRow) (w : Word) : Bool := w &&& r.mask == r.pattern

/-- The row of an instruction: match and mask as each instruction's rule gives them under Encoding. -/
def Instr.row : Instr → OpRow
  | .cls => ⟨"00E0", 0x00E0#16, 0xFFFF#16⟩
  | .ret => ⟨"00EE", 0x00EE#16, 0xFFFF#16⟩
  | .jp _ => ⟨"1NNN", 0x1000#16, 0xF000#16⟩
  | .call _ => ⟨"2NNN", 0x2000#16, 0xF000#16⟩
  | .seImm _ _ => ⟨"3XNN", 0x3000#16, 0xF000#16⟩
  | .sneImm _ _ => ⟨"4XNN", 0x4000#16, 0xF000#16⟩
  | .seReg _ _ => ⟨"5XY0", 0x5000#16, 0xF00F#16⟩
  | .ldImm _ _ => ⟨"6XNN", 0x6000#16, 0xF000#16⟩
  | .addImm _ _ => ⟨"7XNN", 0x7000#16, 0xF000#16⟩
  | .ldReg _ _ => ⟨"8XY0", 0x8000#16, 0xF00F#16⟩
  | .orReg _ _ => ⟨"8XY1", 0x8001#16, 0xF00F#16⟩
  | .andReg _ _ => ⟨"8XY2", 0x8002#16, 0xF00F#16⟩
  | .xorReg _ _ => ⟨"8XY3", 0x8003#16, 0xF00F#16⟩
  | .addReg _ _ => ⟨"8XY4", 0x8004#16, 0xF00F#16⟩
  | .subReg _ _ => ⟨"8XY5", 0x8005#16, 0xF00F#16⟩
  | .shr _ _ => ⟨"8XY6", 0x8006#16, 0xF00F#16⟩
  | .subnReg _ _ => ⟨"8XY7", 0x8007#16, 0xF00F#16⟩
  | .shl _ _ => ⟨"8XYE", 0x800E#16, 0xF00F#16⟩
  | .sneReg _ _ => ⟨"9XY0", 0x9000#16, 0xF00F#16⟩
  | .ldI _ => ⟨"ANNN", 0xA000#16, 0xF000#16⟩
  | .jpV0 _ => ⟨"BNNN", 0xB000#16, 0xF000#16⟩
  | .rnd _ _ => ⟨"CXNN", 0xC000#16, 0xF000#16⟩
  | .drw _ _ _ => ⟨"DXYN", 0xD000#16, 0xF000#16⟩
  | .skp _ => ⟨"EX9E", 0xE09E#16, 0xF0FF#16⟩
  | .sknp _ => ⟨"EXA1", 0xE0A1#16, 0xF0FF#16⟩
  | .ldVxDT _ => ⟨"FX07", 0xF007#16, 0xF0FF#16⟩
  | .ldVxK _ => ⟨"FX0A", 0xF00A#16, 0xF0FF#16⟩
  | .ldDTVx _ => ⟨"FX15", 0xF015#16, 0xF0FF#16⟩
  | .ldSTVx _ => ⟨"FX18", 0xF018#16, 0xF0FF#16⟩
  | .addI _ => ⟨"FX1E", 0xF01E#16, 0xF0FF#16⟩
  | .ldF _ => ⟨"FX29", 0xF029#16, 0xF0FF#16⟩
  | .ldB _ => ⟨"FX33", 0xF033#16, 0xF0FF#16⟩
  | .storeRegs _ => ⟨"FX55", 0xF055#16, 0xF0FF#16⟩
  | .loadRegs _ => ⟨"FX65", 0xF065#16, 0xF0FF#16⟩

/-- The rows of the categories 0x0 to 0x7 and 0x9 to 0xD. -/
def opRowsMain : List OpRow :=
  [Instr.row .cls, Instr.row .ret, Instr.row (.jp 0), Instr.row (.call 0), Instr.row (.seImm 0 0), Instr.row (.sneImm 0 0),
   Instr.row (.seReg 0 0), Instr.row (.ldImm 0 0), Instr.row (.addImm 0 0), Instr.row (.sneReg 0 0), Instr.row (.ldI 0),
   Instr.row (.jpV0 0), Instr.row (.rnd 0 0), Instr.row (.drw 0 0 0)]

/-- The rows of the categories 0x8, 0xE and 0xF. -/
def opRowsSelected : List OpRow :=
  [Instr.row (.ldReg 0 0), Instr.row (.orReg 0 0), Instr.row (.andReg 0 0), Instr.row (.xorReg 0 0), Instr.row (.addReg 0 0),
   Instr.row (.subReg 0 0), Instr.row (.shr 0 0), Instr.row (.subnReg 0 0), Instr.row (.shl 0 0), Instr.row (.skp 0),
   Instr.row (.sknp 0), Instr.row (.ldVxDT 0), Instr.row (.ldVxK 0), Instr.row (.ldDTVx 0), Instr.row (.ldSTVx 0),
   Instr.row (.addI 0), Instr.row (.ldF 0), Instr.row (.ldB 0), Instr.row (.storeRegs 0), Instr.row (.loadRegs 0)]

/-- The opcode table: its 34 rows (R85). -/
def opcodeTable : List OpRow := opRowsMain ++ opRowsSelected

/-! ## The host's entry point -/

/-- The instruction the decoder reads from an instruction whose bits are `w`, numbered as spec/opcode_table.json numbers
them; bits from `nbits` up are 0. An instruction is one 16-bit word, stored big-endian (R55, R88). -/
def decodeTableWord (nbits w : Nat) : Option Instr :=
  match decodeBytes (bytesOfWord (BitVec.ofNat 16 (w % 2 ^ nbits))) with
  | .ok (i, _) => some i
  | .error _ => none

end Sys2Proof
end

