-- ==== Sys2Proof/Config.lean ====
section
/-!
DEFINITION. Config.lean: what an implementation of the core fixes (R5, R6, R7), and the one free value of the model.

The sizes are the spec's. The display's size is a parameter of the core (R6): an instance takes it as an argument and holds it in
`Display.size` of its State, and every definition is written over it. `displayW` and `displayH` are the values the spec decides on
(D2; log entry 1, PRESUMED). The random byte of CXNN is free (R9, D22; log entry 3).
-/

namespace Sys2Proof.Config

/-- MEM_SIZE: the memory holds 4096 bytes, addresses 0x000 to 0xFFF (R5, R50). -/
def memSize : Nat := 4096

/-- PROGRAM_START: the value of PC after construction and reset (R5, R31). -/
def programStart : Word := 0x200#16

/-- The size of a display, DISPLAY_W columns by DISPLAY_H rows, each at least 1 (R6, D2). -/
structure DisplaySize where
  /-- DISPLAY_W, the number of pixel columns. -/
  w : Nat
  /-- DISPLAY_H, the number of pixel rows. -/
  h : Nat
  wPos : 1 ≤ w
  hPos : 1 ≤ h
  deriving DecidableEq, Repr

/-- The decided value of DISPLAY_W (R6, D2; log entry 1, PRESUMED: 64 is not in the source). -/
def displayW : Nat := 64

/-- The decided value of DISPLAY_H (R6, D2; log entry 1, PRESUMED: 32 is not in the source). -/
def displayH : Nat := 32

/-- The decided size, which `State.reset` takes (R6, D2; log entry 1, PRESUMED). -/
def displaySize : DisplaySize := ⟨displayW, displayH, by decide, by decide⟩

/-- STACK_DEPTH: the number of entries of the call stack (R5, R26). -/
def stackDepth : Nat := 16

/-- NUM_KEYS: the number of keys of the keypad (R5, R29). -/
def numKeys : Nat := 16

/-- FONT_BASE: where the host places the font (R7). FX29 adds no base, since it is 0. -/
def fontBase : Nat := 0x000

/-- GLYPH_BYTES: the bytes of one font glyph (R5). -/
def glyphBytes : Nat := 5

/-- The FREE VALUE of the model: the byte the external random source supplies at the k-th draw that finds no byte injected
by the host (R9, R224, D22). It has no body: nothing can be proved about its values. Log entry 3. -/
opaque freeByte : Nat → Byte

end Sys2Proof.Config
end

