-- ==== Sys2Proof/Machine/State.lean ====
section
/-!
DEFINITION. Machine/State.lean: the state of the core (R20), the errors (R210), the reasons a step stops, and the state after
reset (R31).

The spec's state tuple is (M, V, PC, I, STACK, SP, DT, ST, DISP, HELD, RELEASED) and nothing else (R20, R21): no status
register beside VF, no halted flag, no waiting flag, no error latch. More stands here: `quirk`, the core's one configuration
value, which the host may change between steps (R8), the display's size, a parameter that nothing changes (R6), and `rndIn` and `rndCount`, the MODEL's own fields that
hold the random source of CXNN (R9; log entry 3).
-/

namespace Sys2Proof.Machine

/-- The memory M (R50): the listed cells, in the canonical form `Memory.wf` (addresses strictly rising and below 4096, no
cell holding 0). An address that is not listed holds 0x00, the value of every byte at reset (R31; log entry 16). -/
abbrev Memory := List Host.Cell

/-- A bitmap of `w` columns by `h` rows (R28): row r is the r-th bit vector, and bit c of it is the pixel of column c, 0 being
the left edge (D19; log entry 17). Every pixel is 0 or 1 by its type. -/
abbrev Raster (w h : Nat) := Vector (BitVec w) h

/-- The display: its size, a parameter of the core that no operation changes (R6, D2; log entry 1), and its pixels (R28). -/
structure Display where
  /-- DISPLAY_W and DISPLAY_H (R6). -/
  size : Config.DisplaySize
  /-- The pixels (R28). -/
  px : Raster size.w size.h
  deriving DecidableEq, Repr

/-- The state of the core. -/
structure State where
  /-- M, the 4096-byte memory (R20, R50). -/
  mem : Memory
  /-- V0..VF, the general registers (R22). -/
  v : Vector Byte 16
  /-- PC, the program counter (R24). -/
  pc : Word
  /-- I, the index register (R25). -/
  i : Word
  /-- STACK[0]..STACK[15], the return addresses (R26). -/
  stack : Vector Word 16
  /-- SP, the number of stack entries in use, 0 to 16 (R26). -/
  sp : Fin 17
  /-- DT, the delay timer (R27). -/
  dt : Byte
  /-- ST, the sound timer (R27). -/
  st : Byte
  /-- DISP (R28), with the size the instance was constructed with (R6). -/
  disp : Display
  /-- HELD[0]..HELD[15], the level flag of each key (R29). -/
  held : Vector Bool 16
  /-- RELEASED[0]..RELEASED[15], the edge flag of each key (R29). -/
  released : Vector Bool 16
  /-- QUIRK, the configuration value (R8, R20). -/
  quirk : Bool
  /-- The model's own: bytes the host has injected for the coming CXNN executions, the next one first (R9; log entry 3). -/
  rndIn : List Byte
  /-- The model's own: how many free bytes have been drawn; the next draw with none injected is
  `Config.freeByte rndCount` (R9; log entry 3). -/
  rndCount : Nat
  deriving DecidableEq, Repr

/-- The error kinds an operation reports, with their info (R210). -/
inductive Error where
  /-- An access with not InRange(a, len), or a host block write whose data length differs from the requested length. -/
  | memRange (a len : Nat)
  /-- 2NNN with SP = 16. -/
  | stackOverflow
  /-- 00EE with SP = 0. -/
  | stackUnderflow
  /-- A fetched word that matches no row of the opcode map. -/
  | invalidOpcode (w : Word)
  /-- EX9E or EXA1 with V[x] above 15; the value is V[x]. -/
  | keyRange (k : Byte)
  deriving DecidableEq, Repr

/-- The reasons a step stops: the errors of R210, each with `pcAt`, the value PC had at the start of that step. The spec
treats an error as a fault of the run (R214, D13; log entry 4). All are SAFE: the model stops where the core, if its host
goes on, would take a further step; the state the error leaves is `stateLeft` and `stepLeft` of Machine/HostInterface.lean. -/
inductive Fault where
  /-- Raised by the fetch (R81), DXYN (R101), FX33 (R173), FX55 (R174) and FX65 (R175): the block of `len` bytes at `a` does
  not lie in 0x000..0xFFF. Safe. -/
  | memRange (pcAt : Word) (a len : Nat)
  /-- Raised by 2NNN with a full stack (R122). Safe. -/
  | stackOverflow (pcAt : Word)
  /-- Raised by 00EE with an empty stack (R120). Safe. -/
  | stackUnderflow (pcAt : Word)
  /-- Raised by the decode of a word that matches no row (R86). Safe. -/
  | invalidOpcode (pcAt : Word) (w : Word)
  /-- Raised by EX9E (R190) and EXA1 (R191) when V[x] names no key. Safe. -/
  | keyRange (pcAt : Word) (k : Byte)
  deriving DecidableEq, Repr

/-- The reasons the model gives an instruction no meaning. No arm of `exec` uses one: all 34 instructions are modelled. -/
inductive Refusal where
  /-- Raised by an arm of `exec` whose instruction has no meaning yet; none is left. Safe. -/
  | notModelled (mnemonic : String)
  deriving DecidableEq, Repr

/-- What a step or a meaning answers. -/
abbrev Result := Host.Outcome State Fault Refusal

/-- The state after construction and after Reset (R31, R240): everything zero and PC = 0x200. QUIRK is supplied by the host at
construction and has no default (D4): `false` here is the model's DESIGN CHOICE (log entry 2). The display has the size the spec
decides on (R6, D2; log entry 1, PRESUMED). `construct` of Machine/HostInterface.lean takes any size and either QUIRK. -/
def State.reset : State where
  mem := []
  v := Vector.replicate 16 0#8
  pc := Config.programStart
  i := 0#16
  stack := Vector.replicate 16 0#16
  sp := 0
  dt := 0#8
  st := 0#8
  disp := ⟨Config.displaySize, Vector.replicate Config.displayH 0⟩
  held := Vector.replicate 16 false
  released := Vector.replicate 16 false
  quirk := false
  rndIn := []
  rndCount := 0

end Sys2Proof.Machine
end

