-- ==== Sys2Proof/Machine/Ops.lean ====
section
/-!
DEFINITION. Machine/Ops.lean: the named operations over memory, registers, stack, random source and errors that the meanings
are written over.

Every register has one home in State and is read and written through the accessors here. Memory is read and written through
`memRead` and `memWrite`, whose range check is R52's. An error is raised by `raise`, which keeps nothing and transfers
control nowhere: the core has no trap mechanism (R216).
-/

namespace Sys2Proof.Machine

/-! ## Memory as data (R50) -/

/-- The byte at an address: the listed one, or 0x00 (R31). -/
def Memory.get : Memory → Nat → Byte
  | [], _ => 0#8
  | (b, u) :: m, a => if a = b then u else Memory.get m a

/-- Writing one byte keeps the canonical form: a 0 is not listed, an address stands at its place in the rising order. -/
def Memory.set : Memory → Nat → Byte → Memory
  | [], a, x => if x = 0#8 then [] else [(a, x)]
  | (b, u) :: m, a, x =>
    if a < b then (if x = 0#8 then (b, u) :: m else (a, x) :: (b, u) :: m)
    else if a = b then (if x = 0#8 then m else (a, x) :: m)
    else (b, u) :: Memory.set m a x

/-- The n bytes at a, a+1, ..., in increasing address order (R53). -/
def Memory.getBytes (m : Memory) (a : Nat) : Nat → List Byte
  | 0 => []
  | n + 1 => m.get a :: Memory.getBytes m (a + 1) n

/-- Write the bytes at a, a+1, ... (R54). -/
def Memory.setBytes (m : Memory) (a : Nat) : List Byte → Memory
  | [] => m
  | x :: xs => Memory.setBytes (m.set a x) (a + 1) xs

/-- The canonical form from an address on: addresses strictly rising from `lo`, below MEM_SIZE, no cell holding 0. -/
def Memory.wfFrom (lo : Nat) : Memory → Bool
  | [] => true
  | (a, x) :: m => decide (lo ≤ a) && decide (a < Config.memSize) && decide (x ≠ 0#8) && Memory.wfFrom (a + 1) m

/-- The canonical form of a memory: equal memories are equal lists. -/
def Memory.wf (m : Memory) : Bool := Memory.wfFrom 0 m

/-! ## The range check and the primitives (R52, R53, R54) -/

/-- InRange(a, len), on unbounded naturals: an address is never reduced modulo 4096. It checks `a < 4096` for a zero-length
block too (R52; D18, log entry 11). -/
def inRange (a len : Nat) : Bool := decide (a < Config.memSize) && decide (a + len ≤ Config.memSize)

/-- MemRead(a, n) (R53). -/
def memRead (a n : Nat) (s : State) : Except Error (List Byte) :=
  if inRange a n then .ok (s.mem.getBytes a n) else .error (.memRange a n)

/-- MemWrite(a, n, v), n being the number of bytes (R54): the whole block or nothing. -/
def memWrite (a : Nat) (bytes : List Byte) (s : State) : Except Error State :=
  if inRange a bytes.length then .ok { s with mem := s.mem.setBytes a bytes } else .error (.memRange a bytes.length)

/-! ## Registers (R22, R24, R25, R27) -/

/-- V[r]. -/
def State.reg (s : State) (r : Reg) : Byte := s.v.get r

/-- V[r] <- x. -/
def State.setReg (s : State) (r : Reg) (x : Byte) : State := { s with v := s.v.set r x }

/-- PC <- a. -/
def State.setPC (s : State) (a : Word) : State := { s with pc := a }

/-- I <- a. -/
def State.setI (s : State) (a : Word) : State := { s with i := a }

/-- DT <- x. -/
def State.setDT (s : State) (x : Byte) : State := { s with dt := x }

/-- ST <- x. -/
def State.setST (s : State) (x : Byte) : State := { s with st := x }

/-- Write the display's pixels; its size stays (R6). -/
def State.setDisp (s : State) (d : Raster s.disp.size.w s.disp.size.h) : State := { s with disp := ⟨s.disp.size, d⟩ }

/-- V[0], V[1], ... as one list, in index order. -/
def State.regs (s : State) : List Byte := s.v.toList

/-- V[k] <- bytes[0], V[k+1] <- bytes[1], ...; registers past VF do not exist. -/
def loadInto (v : Vector Byte 16) (k : Nat) : List Byte → Vector Byte 16
  | [] => v
  | x :: xs => loadInto (v.setIfInBounds k x) (k + 1) xs

/-- Load registers from V0 on. -/
def State.setRegsFrom0 (s : State) (bytes : List Byte) : State := { s with v := loadInto s.v 0 bytes }

/-! ## The advance of PC (R24, R128) -/

/-- PC <- (PC + 2) mod 2^16: the fetch's advance and a skip's. -/
def State.advance (s : State) : State := s.setPC (s.pc + 2#16)

/-- PC <- (PC - 2) mod 2^16: FX0A executes again (R193). -/
def State.rewind (s : State) : State := s.setPC (s.pc - 2#16)

/-- A skip passes over exactly one word when its condition holds (R128). -/
def State.skipIf (s : State) (c : Bool) : State := if c then s.advance else s

/-! ## The call stack (R26) -/

/-- STACK[SP] <- a; SP <- SP + 1, or StackOverflow when SP = 16 (R122). -/
def push (a : Word) (s : State) : Except Error State :=
  if h : s.sp.val < Config.stackDepth then
    .ok { s with stack := s.stack.set s.sp.val a h, sp := ⟨s.sp.val + 1, Nat.succ_lt_succ h⟩ }
  else .error .stackOverflow

/-- SP <- SP - 1; the value is STACK[SP], which keeps it, or StackUnderflow when SP = 0 (R120). -/
def pop (s : State) : Except Error (Word × State) :=
  match s.sp with
  | ⟨0, _⟩ => .error .stackUnderflow
  | ⟨k + 1, h⟩ => .ok (s.stack.get ⟨k, Nat.lt_of_succ_lt_succ h⟩, { s with sp := ⟨k, Nat.lt_of_succ_lt h⟩ })

/-! ## Keypad (R29) -/

/-- The least k with RELEASED[k], if there is one (R193; D16, log entry 14). -/
def State.leastReleased (s : State) : Option Nat := s.released.toList.findIdx? id

/-! ## The random source (R9, R224; log entry 3) -/

/-- The byte RND the source supplies now: the next injected one, or a free byte. -/
def State.rndByte (s : State) : Byte :=
  match s.rndIn with
  | [] => Config.freeByte s.rndCount
  | b :: _ => b

/-- The source after it has supplied a byte. -/
def State.rndDrawn (s : State) : State :=
  match s.rndIn with
  | [] => { s with rndCount := s.rndCount + 1 }
  | _ :: bs => { s with rndIn := bs }

/-! ## Errors (R210, R212) -/

/-- The code of an error kind (R210; D11: labels only, log entry 24). -/
def Error.code : Error → Nat
  | .memRange _ _ => 1
  | .stackOverflow => 2
  | .stackUnderflow => 3
  | .invalidOpcode _ => 4
  | .keyRange _ => 5

/-- The fault of a step whose error is `e` and at whose start PC held `pcAt` (R210). -/
def faultOf (pcAt : Word) : Error → Fault
  | .memRange a len => .memRange pcAt a len
  | .stackOverflow => .stackOverflow pcAt
  | .stackUnderflow => .stackUnderflow pcAt
  | .invalidOpcode w => .invalidOpcode pcAt w
  | .keyRange k => .keyRange pcAt k

/-- The error a fault reports. -/
def Fault.error : Fault → Error
  | .memRange _ a len => .memRange a len
  | .stackOverflow _ => .stackOverflow
  | .stackUnderflow _ => .stackUnderflow
  | .invalidOpcode _ w => .invalidOpcode w
  | .keyRange _ k => .keyRange k

/-- `at`: the value PC had at the start of the step (R210). -/
def Fault.pcAt : Fault → Word
  | .memRange p _ _ => p
  | .stackOverflow p => p
  | .stackUnderflow p => p
  | .invalidOpcode p _ => p
  | .keyRange p _ => p

/-- The address of the instruction being executed, in a state whose PC the fetch has advanced (R24; log entry 5). -/
def State.instrAddr (s : State) : Word := s.pc - 2#16

/-- An error of the decode or execute phase: the step ends with it, and `s` is the state just after the fetch (R212 (b)).
Nothing is saved and control goes nowhere (R216). -/
def raise (e : Error) (s : State) : Result := .fault (faultOf s.instrAddr e)

/-- An error of the fetch phase: PC has not advanced (R212 (a)). -/
def raiseInFetch (e : Error) (s : State) : Result := .fault (faultOf s.pc e)

/-! ## The fetch (R81) -/

/-- The word at PC, PC+1, big-endian (R55). -/
def State.wordAtPC (s : State) : Word := wordOfBytes (s.mem.get s.pc.toNat) (s.mem.get (s.pc.toNat + 1))

/-- Fetch: the word at PC and the state with PC advanced by 2, or MemRange(PC, 2) (R81). -/
def fetch (s : State) : Except Error (Word × State) :=
  if inRange s.pc.toNat 2 then .ok (s.wordAtPC, s.advance) else .error (.memRange s.pc.toNat 2)

/-- The state with a word stored where the next fetch reads: at PC, or at PROGRAM_START with PC moved there when no fetch is
possible at PC (log entry 18). -/
def State.placeWord (s : State) (w : Word) : State :=
  if inRange s.pc.toNat 2 then { s with mem := s.mem.setBytes s.pc.toNat (bytesOfWord w) }
  else { s with mem := s.mem.setBytes Config.programStart.toNat (bytesOfWord w), pc := Config.programStart }

end Sys2Proof.Machine
end

