-- ==== Sys2Proof/Machine/Flags.lean ====
section
/-!
DEFINITION. Machine/Flags.lean: every flag computation of the core. VF is the only flag register (R23). A flag is computed
from the operand values read at the start (R89) and written last, so with x = 0xF it replaces the result (R153; D6, D7, log
entry 7).
-/

namespace Sys2Proof.Machine

/-- A flag as a register value: 1 or 0. -/
def flag (b : Bool) : Byte := if b then 1#8 else 0#8

/-- 8XY4: the unsigned sum exceeds 255 (R146). -/
def carries (a b : Byte) : Bool := decide (a.toNat + b.toNat > 255)

/-- 8XY5 and 8XY7: the subtraction a - b takes no borrow (R147, R149). -/
def noBorrow (a b : Byte) : Bool := decide (a.toNat ≥ b.toNat)

/-- 8XY6: the bit shifted out, bit 0 (R148). -/
def lowBit (a : Byte) : Bool := a.getLsbD 0

/-- 8XYE: the bit shifted out, bit 7 (R150). -/
def highBit (a : Byte) : Bool := a.getLsbD 7

/-- FX1E: I crosses from 0x000..0xFFF to 0x1000 or above (R171; D8, log entry 8). -/
def crosses (old : Word) (x : Byte) : Bool := decide (old.toNat ≤ 0xFFF) && decide (old.toNat + x.toNat > 0xFFF)

/-- VF <- the flag. -/
def State.setFlag (s : State) (b : Bool) : State := s.setReg VF (flag b)

/-- V[x] <- the result, then VF <- the flag (R153). -/
def State.setRegFlag (s : State) (x : Reg) (result : Byte) (b : Bool) : State := (s.setReg x result).setFlag b

end Sys2Proof.Machine
end

