-- ==== Sys2Proof/Machine/Operands.lean ====
section
/-!
DEFINITION. Machine/Operands.lean: every operand form of the core (R82, R83): immediates, the registers QUIRK selects, key
indices, the start position of a sprite, and the addresses of data in memory.
-/

namespace Sys2Proof.Machine

/-- zext_16(nnn) (R83). -/
def addrOf (nnn : Addr12) : Word := nnn.setWidth 16

/-- x = nnn[11:8], the field that names BNNN's offset register with QUIRK = 1 (R84, R127). -/
def regOf (nnn : Addr12) : Reg := (nnn.extractLsb' 8 4).toFin

/-- The source of 8XY6 and 8XYE: V[x] with QUIRK = 1, V[y] with QUIRK = 0 (R148, R150; D5, log entry 9). -/
def State.shiftSource (s : State) (x y : Reg) : Byte := if s.quirk then s.reg x else s.reg y

/-- The offset of BNNN: V[nnn[11:8]] with QUIRK = 1, V[0] with QUIRK = 0 (R127). -/
def State.jumpOffset (s : State) (nnn : Addr12) : Byte := if s.quirk then s.reg (regOf nnn) else s.reg 0

/-- The target of BNNN: (zext_16(nnn) + offset) mod 2^16 (R127). -/
def State.jumpTarget (s : State) (nnn : Addr12) : Word := addrOf nnn + (s.jumpOffset nnn).setWidth 16

/-- The key V[x] names, or KeyRange(V[x]) when it is above 15 (R190, R191; D15, log entry 13). -/
def keyOf (s : State) (x : Reg) : Except Error (Fin 16) :=
  if h : (s.reg x).toNat < Config.numKeys then .ok ⟨(s.reg x).toNat, h⟩ else .error (.keyRange (s.reg x))

/-- The start column of a sprite: V[x] mod DISPLAY_W (R101). -/
def State.startCol (s : State) (x : Reg) : Nat := (s.reg x).toNat % s.disp.size.w

/-- The start row of a sprite: V[y] mod DISPLAY_H (R101). -/
def State.startRow (s : State) (y : Reg) : Nat := (s.reg y).toNat % s.disp.size.h

/-- I as an address of data: the only addressing mode is I plus a constant offset (43_index_memory.md). -/
def State.dataAddr (s : State) : Nat := s.i.toNat

/-- The address of glyph V[x] of the font, in 16 bits, with no base added and no mask (R172, R7). -/
def State.glyphAddr (s : State) (x : Reg) : Word := BitVec.ofNat 16 ((s.reg x).toNat * Config.glyphBytes)

/-- The number of registers V0..Vx that FX55 and FX65 move (R83). -/
def countOf (x : Reg) : Nat := x.val + 1

/-- FX55 and FX65 leave I = base + x + 1 with QUIRK = 0 and unchanged with QUIRK = 1 (R174, R175). -/
def State.advanceI (s : State) (x : Reg) : State :=
  if s.quirk then s else s.setI (BitVec.ofNat 16 (s.i.toNat + countOf x))

/-- The decimal digits of a byte: hundreds, tens, ones (R173). -/
def bcd (x : Byte) : List Byte :=
  [BitVec.ofNat 8 (x.toNat / 100), BitVec.ofNat 8 (x.toNat / 10 % 10), BitVec.ofNat 8 (x.toNat % 10)]

end Sys2Proof.Machine
end

