-- ==== Sys2Proof/Machine/Alu.lean ====
section
/-!
DEFINITION. Machine/Alu.lean: the meanings of the register arithmetic and logic (42_alu.md). Arithmetic is unsigned, modulo
256, and never traps (R152). Operands are read before any write (R89).
-/

namespace Sys2Proof.Machine

/-- `6XNN` LD Vx, byte (R140). -/
def execLdImm (x : Reg) (nn : Byte) (s : State) : Result := .next (s.setReg x nn)

/-- `7XNN` ADD Vx, byte (R141): no carry is kept. -/
def execAddImm (x : Reg) (nn : Byte) (s : State) : Result :=
  .next (s.setReg x (BitVec.ofNat 8 ((s.reg x).toNat + nn.toNat)))

/-- `8XY0` LD Vx, Vy (R142). -/
def execLdReg (x y : Reg) (s : State) : Result := .next (s.setReg x (s.reg y))

/-- `8XY1` OR Vx, Vy (R143): VF is not written (D34, log entry 10). -/
def execOrReg (x y : Reg) (s : State) : Result := .next (s.setReg x (s.reg x ||| s.reg y))

/-- `8XY2` AND Vx, Vy (R144): VF is not written (D34, log entry 10). -/
def execAndReg (x y : Reg) (s : State) : Result := .next (s.setReg x (s.reg x &&& s.reg y))

/-- `8XY3` XOR Vx, Vy (R145): VF is not written (D34, log entry 10). -/
def execXorReg (x y : Reg) (s : State) : Result := .next (s.setReg x (s.reg x ^^^ s.reg y))

/-- `8XY4` ADD Vx, Vy (R146). -/
def execAddReg (x y : Reg) (s : State) : Result :=
  .next (s.setRegFlag x (BitVec.ofNat 8 ((s.reg x).toNat + (s.reg y).toNat)) (carries (s.reg x) (s.reg y)))

/-- `8XY5` SUB Vx, Vy (R147). -/
def execSubReg (x y : Reg) (s : State) : Result :=
  .next (s.setRegFlag x (s.reg x - s.reg y) (noBorrow (s.reg x) (s.reg y)))

/-- `8XY6` SHR Vx, Vy (R148). -/
def execShr (x y : Reg) (s : State) : Result :=
  .next (s.setRegFlag x (s.shiftSource x y >>> 1) (lowBit (s.shiftSource x y)))

/-- `8XY7` SUBN Vx, Vy (R149). -/
def execSubnReg (x y : Reg) (s : State) : Result :=
  .next (s.setRegFlag x (s.reg y - s.reg x) (noBorrow (s.reg y) (s.reg x)))

/-- `8XYE` SHL Vx, Vy (R150). -/
def execShl (x y : Reg) (s : State) : Result :=
  .next (s.setRegFlag x (s.shiftSource x y <<< 1) (highBit (s.shiftSource x y)))

/-- `CXNN` RND Vx, byte (R151): the byte RND comes from outside the core (R9, R224; log entry 3). -/
def execRnd (x : Reg) (nn : Byte) (s : State) : Result := .next (s.rndDrawn.setReg x (nn &&& s.rndByte))

end Sys2Proof.Machine
end

