-- ==== Sys2Proof/Machine/Control.lean ====
section
/-!
DEFINITION. Machine/Control.lean: the meanings of the control transfers (41_control.md). No target is checked when it is
written to PC: a bad one makes the next fetch raise MemRange (R128).
-/

namespace Sys2Proof.Machine

/-- `00EE` RET (R120). -/
def execRet (s : State) : Result :=
  match pop s with
  | .error e => raise e s
  | .ok (a, t) => .next (t.setPC a)

/-- `1NNN` JP addr (R121). -/
def execJp (nnn : Addr12) (s : State) : Result := .next (s.setPC (addrOf nnn))

/-- `2NNN` CALL addr (R122): the pushed value is PC, the address of the instruction after the call. -/
def execCall (nnn : Addr12) (s : State) : Result :=
  match push s.pc s with
  | .error e => raise e s
  | .ok t => .next (t.setPC (addrOf nnn))

/-- `3XNN` SE Vx, byte (R123). -/
def execSeImm (x : Reg) (nn : Byte) (s : State) : Result := .next (s.skipIf (s.reg x == nn))

/-- `4XNN` SNE Vx, byte (R124). -/
def execSneImm (x : Reg) (nn : Byte) (s : State) : Result := .next (s.skipIf (s.reg x != nn))

/-- `5XY0` SE Vx, Vy (R125). -/
def execSeReg (x y : Reg) (s : State) : Result := .next (s.skipIf (s.reg x == s.reg y))

/-- `9XY0` SNE Vx, Vy (R126). -/
def execSneReg (x y : Reg) (s : State) : Result := .next (s.skipIf (s.reg x != s.reg y))

/-- `BNNN` JP V0, addr (R127). -/
def execJpV0 (nnn : Addr12) (s : State) : Result := .next (s.setPC (s.jumpTarget nnn))

end Sys2Proof.Machine
end

