-- ==== Sys2Proof/Machine/Raster.lean ====
section
/-!
DEFINITION. Machine/Raster.lean: the raster engine (R28, R100, R101), over any width and height (R6).

A sprite's start position wraps, its body does not: a pixel at a column past the right edge or a row past the bottom edge is
neither drawn nor counted as a collision.
-/

namespace Sys2Proof.Machine

variable {w h : Nat}

/-- DISP[c][r]; outside the raster there is no pixel and the answer is 0. -/
def Raster.pixel (d : Raster w h) (c r : Nat) : Bool :=
  match d[r]? with
  | some row => row.getLsbD c
  | none => false

/-- DISP[c][r] of a display. -/
def Display.pixel (d : Display) (c r : Nat) : Bool := d.px.pixel c r

/-- DISP[c][r] <- DISP[c][r] XOR 1, for a pixel inside the raster. -/
def Raster.flip (d : Raster w h) (c r : Nat) : Raster w h :=
  match d[r]? with
  | some row => d.setIfInBounds r (row ^^^ BitVec.twoPow w c)
  | none => d

/-- Every pixel 0 (R100). -/
def Raster.blank (w h : Nat) : Raster w h := Vector.replicate h 0

/-- A display of a size with every pixel 0 (R31). -/
def Display.blank (size : Config.DisplaySize) : Display := ⟨size, Raster.blank size.w size.h⟩

/-- A bitmap and whether a set pixel has been turned off so far. -/
structure Canvas (w h : Nat) where
  disp : Raster w h
  coll : Bool

/-- One bit of a sprite at column c and row r: a 1 inside the raster flips the pixel, and counts as a collision when the pixel
was set (R101). -/
def Canvas.plot (p : Canvas w h) (c r : Nat) (bit : Bool) : Canvas w h :=
  if bit && decide (c < w) && decide (r < h) then ⟨p.disp.flip c r, p.coll || p.disp.pixel c r⟩ else p

/-- The bits b, b+1, ... of one sprite row, bit 7 of the byte at column c0 (R101); `left` counts the bits still to draw. -/
def Canvas.plotRow (p : Canvas w h) (c0 r : Nat) (row : Byte) : Nat → Canvas w h
  | 0 => p
  | left + 1 => Canvas.plotRow (p.plot (c0 + (7 - left)) r (row.getLsbD left)) c0 r row left

/-- The rows of a sprite, the top row first (R101). -/
def Canvas.plotRows (p : Canvas w h) (c0 r : Nat) : List Byte → Canvas w h
  | [] => p
  | row :: rows => Canvas.plotRows (p.plotRow c0 r row 8) c0 (r + 1) rows

/-- Draw a sprite with its top left corner at column c0 and row r0; no collision has been seen before it (R101). -/
def Raster.draw (d : Raster w h) (c0 r0 : Nat) (rows : List Byte) : Canvas w h := Canvas.plotRows ⟨d, false⟩ c0 r0 rows

/-- The pixels in row-major order: element r * w + c is DISP[c][r] (R223; D19, log entry 17). -/
def Raster.view (d : Raster w h) : List Bool := d.toList.flatMap fun row => (List.range w).map row.getLsbD

end Sys2Proof.Machine
end

