-- ==== Sys2Proof/Machine/Display.lean ====
section
/-!
DEFINITION. Machine/Display.lean: the meanings of 00E0 and DXYN (40_display.md). A meaning runs on the state just after the
fetch: PC already holds the instruction's address plus 2 (R24, R89; log entry 5).
-/

namespace Sys2Proof.Machine

/-- `00E0` CLS (R100). -/
def execCls (s : State) : Result := .next (s.setDisp (Raster.blank _ _))

/-- `DXYN` DRW Vx, Vy, n (R101). All n rows are read, clipped or not, before anything is written (D18, log entry 11). -/
def execDrw (x y : Reg) (n : Nat) (s : State) : Result :=
  match memRead s.dataAddr n s with
  | .error e => raise e s
  | .ok rows =>
    let p := s.disp.px.draw (s.startCol x) (s.startRow y) rows
    .next ((s.setDisp p.disp).setFlag p.coll)

end Sys2Proof.Machine
end

