-- ==== Sys2Proof/Machine/IndexMemory.lean ====
section
/-!
DEFINITION. Machine/IndexMemory.lean: the meanings of the instructions that write I and that move data between registers and
memory (43_index_memory.md). A block is checked whole before any byte moves (R54, R57; D12, log entry 4).
-/

namespace Sys2Proof.Machine

/-- `ANNN` LD I, addr (R170). -/
def execLdI (nnn : Addr12) (s : State) : Result := .next (s.setI (addrOf nnn))

/-- `FX1E` ADD I, Vx (R171): I wraps modulo 2^16 (D9), VF is written last (D7, D8; log entries 7 and 8). -/
def execAddI (x : Reg) (s : State) : Result :=
  .next ((s.setI (BitVec.ofNat 16 (s.i.toNat + (s.reg x).toNat))).setFlag (crosses s.i (s.reg x)))

/-- `FX29` LD F, Vx (R172). -/
def execLdF (x : Reg) (s : State) : Result := .next (s.setI (s.glyphAddr x))

/-- `FX33` LD B, Vx (R173). -/
def execLdB (x : Reg) (s : State) : Result :=
  match memWrite s.dataAddr (bcd (s.reg x)) s with
  | .error e => raise e s
  | .ok t => .next t

/-- `FX55` LD [I], Vx (R174): V0..Vx to memory, then I as QUIRK says. -/
def execStoreRegs (x : Reg) (s : State) : Result :=
  match memWrite s.dataAddr (s.regs.take (countOf x)) s with
  | .error e => raise e s
  | .ok t => .next (t.advanceI x)

/-- `FX65` LD Vx, [I] (R175): V0..Vx from memory, then I as QUIRK says. -/
def execLoadRegs (x : Reg) (s : State) : Result :=
  match memRead s.dataAddr (countOf x) s with
  | .error e => raise e s
  | .ok bytes => .next ((s.setRegsFrom0 bytes).advanceI x)

end Sys2Proof.Machine
end

