-- ==== Sys2Proof/Machine/KeypadTimer.lean ====
section
/-!
DEFINITION. Machine/KeypadTimer.lean: the meanings of the keypad and timer instructions (44_keypad_timer.md). None of them
writes HELD or RELEASED or ticks a timer (R29, R27).
-/

namespace Sys2Proof.Machine

/-- `EX9E` SKP Vx (R190): HELD is the level flag; RELEASED is ignored. -/
def execSkp (x : Reg) (s : State) : Result :=
  match keyOf s x with
  | .error e => raise e s
  | .ok k => .next (s.skipIf (s.held.get k))

/-- `EXA1` SKNP Vx (R191). -/
def execSknp (x : Reg) (s : State) : Result :=
  match keyOf s x with
  | .error e => raise e s
  | .ok k => .next (s.skipIf (!s.held.get k))

/-- `FX07` LD Vx, DT (R192). -/
def execLdVxDT (x : Reg) (s : State) : Result := .next (s.setReg x s.dt)

/-- `FX0A` LD Vx, K (R193): with no key released PC goes back to this instruction, and nothing else changes; RELEASED is not
cleared (D16, D17; log entry 14). -/
def execLdVxK (x : Reg) (s : State) : Result :=
  match s.leastReleased with
  | some k => .next (s.setReg x (BitVec.ofNat 8 k))
  | none => .next s.rewind

/-- `FX15` LD DT, Vx (R194). -/
def execLdDTVx (x : Reg) (s : State) : Result := .next (s.setDT (s.reg x))

/-- `FX18` LD ST, Vx (R195). -/
def execLdSTVx (x : Reg) (s : State) : Result := .next (s.setST (s.reg x))

end Sys2Proof.Machine
end

