-- ==== Sys2Proof/Machine/Step.lean ====
section
/-!
DEFINITION. Machine/Step.lean: Step, exactly one fetch, decode and execute (R80), and how the host places a word where the
next step fetches it.
-/

namespace Sys2Proof.Machine

/-- Step (R80): `w <- Fetch(); ins <- Decode(w); Execute(ins)`; an error of any phase ends the step with it. -/
def step (s : State) : Host.Outcome State Fault Refusal :=
  match fetch s with
  | .error e => raiseInFetch e s
  | .ok (w, t) =>
    match decode w with
    | none => raise (.invalidOpcode w) t
    | some i => exec i t

/-- The state with the instruction word `w` (bits from `nbits` up are 0) stored where the next step fetches it, so that the
very next step runs it (log entry 18). -/
def State.withFetchWord (s : State) (nbits w : Nat) : State := s.placeWord (BitVec.ofNat 16 (w % 2 ^ nbits))

end Sys2Proof.Machine
end

