-- ==== Sys2Proof/Machine/HostInterface.lean ====
section
/-!
DEFINITION. Machine/HostInterface.lean: the host operations (R220), each atomic and run between steps, one at a time in the
order the host issues them; the state an error leaves (R212); and a run under the host's policy on errors (R214).

The core's `step` is the operation Step with the random source standing in State; `hostOp (.step b)` is Step(RND) with the
host's own input byte (R80, R224). Nothing here is reached by an instruction.
-/

namespace Sys2Proof.Machine

/-! ## What an error leaves (R212) -/

/-- The state a meaning leaves, `s` being the state just after the fetch: an error has changed nothing since (R212 (b)). -/
def stateLeft (s : State) : Result → State
  | .next t => t
  | .fault _ => s
  | .refused _ => s

/-- The state a step leaves: a failed fetch changes nothing (R212 (a)), a later error leaves the fetch's advance (R212 (b)). -/
def stepLeft (s : State) : State :=
  match fetch s with
  | .error _ => s
  | .ok (_, t) => stateLeft t (step s)

/-! ## The operations -/

/-- Construct(QUIRK) (R240): the reset state with the QUIRK value the host supplies, on a display of the instance's size (R6). -/
def construct (size : Config.DisplaySize) (quirk : Bool) : State := { State.reset with disp := .blank size, quirk := quirk }

/-- Reset (R241): the state tuple back to its reset values; QUIRK and the random source are untouched (D4, D24), and so is the
display's size, a parameter (R6). -/
def resetOp (s : State) : State :=
  { State.reset with disp := .blank s.disp.size, quirk := s.quirk, rndIn := s.rndIn, rndCount := s.rndCount }

/-- ReplaceMemory(img) (R65; D23): exactly 4096 bytes, or MemRange and no change. -/
def replaceMemory (img : List Byte) (s : State) : Except Error State :=
  if img.length = Config.memSize then .ok { s with mem := Memory.setBytes [] 0 img } else .error (.memRange 0 img.length)

/-- ReadByte(a) (R66). -/
def readByte (a : Nat) (s : State) : Except Error Byte :=
  if inRange a 1 then .ok (s.mem.get a) else .error (.memRange a 1)

/-- WriteByte(a, b) (R66). -/
def writeByte (a : Nat) (b : Byte) (s : State) : Except Error State := memWrite a [b] s

/-- ReadSlice(a, len) (R67). -/
def readSlice (a len : Nat) (s : State) : Except Error (List Byte) := memRead a len s

/-- WriteSlice(a, len, data) (R67; D23): a data length other than `len` is MemRange too. -/
def writeSlice (a len : Nat) (data : List Byte) (s : State) : Except Error State :=
  if data.length = len then memWrite a data s else .error (.memRange a len)

/-- LoadProgram(offset, bytes) (R242, R68): a WriteSlice, and nothing else; PC is not set. -/
def loadProgram (offset : Nat) (bytes : List Byte) (s : State) : Except Error State :=
  writeSlice offset bytes.length bytes s

/-- SetHeld(k, b) (R222). -/
def setHeld (k : Fin 16) (b : Bool) (s : State) : State := { s with held := s.held.set k b }

/-- SetReleased(k, b) (R222). -/
def setReleased (k : Fin 16) (b : Bool) (s : State) : State := { s with released := s.released.set k b }

/-- A timer ticks down and stops at 0 (R221). -/
def tick (x : Byte) : Byte := if x = 0#8 then 0#8 else x - 1#8

/-- TickTimers (R221): both timers, always together. -/
def tickTimers (s : State) : State := (s.setDT (tick s.dt)).setST (tick s.st)

/-- ReadDisplay (R223). -/
def readDisplay (s : State) : List Bool := s.disp.px.view

/-- SetQuirk(b) (R8, R248): it takes effect from the next step. -/
def setQuirk (b : Bool) (s : State) : State := { s with quirk := b }

/-- The state with the host's byte as the input RND of the coming step (R80). -/
def State.withRnd (s : State) (rnd : Byte) : State := { s with rndIn := [rnd] }

/-- Step(RND) (R80): the byte belongs to this step alone and is dropped when the instruction is not CXNN (R224). -/
def stepWith (rnd : Byte) (s : State) : Result :=
  match step (s.withRnd rnd) with
  | .next t => .next { t with rndIn := s.rndIn }
  | .fault f => .fault f
  | .refused r => .refused r

/-- The state Step(RND) leaves, error or not (R212). -/
def stepWithLeft (rnd : Byte) (s : State) : State := { stepLeft (s.withRnd rnd) with rndIn := s.rndIn }

/-- The host operations (R220); Construct makes a core and is `construct`. -/
inductive HostOp where
  | reset
  | replaceMemory (img : List Byte)
  | readByte (a : Nat)
  | writeByte (a : Nat) (b : Byte)
  | readSlice (a len : Nat)
  | writeSlice (a len : Nat) (data : List Byte)
  | loadProgram (offset : Nat) (bytes : List Byte)
  | setHeld (k : Fin 16) (b : Bool)
  | setReleased (k : Fin 16) (b : Bool)
  | tickTimers
  | step (rnd : Byte)
  | readDisplay
  | setQuirk (b : Bool)
  deriving DecidableEq, Repr

/-- What an operation gives back (R220). -/
inductive HostReply where
  /-- Ok. -/
  | ok
  /-- The byte ReadByte read. -/
  | byte (b : Byte)
  /-- The bytes ReadSlice read. -/
  | bytes (bs : List Byte)
  /-- The pixels of ReadDisplay. -/
  | pixels (ps : List Bool)
  /-- The error of an operation other than Step (R210). -/
  | error (e : Error)
  /-- The error of a Step, with `at` (R210). -/
  | stepError (f : Fault)
  /-- The model gives the step's instruction no meaning; it never happens. -/
  | unmodelled (r : Refusal)
  deriving DecidableEq, Repr

/-- An operation that answers a state: Ok with it, or the error with nothing changed (R212 (c)). -/
def replyWrite (s : State) : Except Error State → HostReply × State
  | .ok t => (.ok, t)
  | .error e => (.error e, s)

/-- One host operation: its reply and the state after it (R220). -/
def hostOp (op : HostOp) (s : State) : HostReply × State :=
  match op with
  | .reset => (.ok, resetOp s)
  | .replaceMemory img => replyWrite s (replaceMemory img s)
  | .readByte a =>
    match readByte a s with
    | .ok b => (.byte b, s)
    | .error e => (.error e, s)
  | .writeByte a b => replyWrite s (writeByte a b s)
  | .readSlice a len =>
    match readSlice a len s with
    | .ok bs => (.bytes bs, s)
    | .error e => (.error e, s)
  | .writeSlice a len data => replyWrite s (writeSlice a len data s)
  | .loadProgram offset bytes => replyWrite s (loadProgram offset bytes s)
  | .setHeld k b => (.ok, setHeld k b s)
  | .setReleased k b => (.ok, setReleased k b s)
  | .tickTimers => (.ok, tickTimers s)
  | .step rnd =>
    match stepWith rnd s with
    | .next t => (.ok, t)
    | .fault f => (.stepError f, stepWithLeft rnd s)
    | .refused r => (.unmodelled r, s)
  | .readDisplay => (.pixels (readDisplay s), s)
  | .setQuirk b => (.ok, setQuirk b s)

/-! ## Runs of host operations (R220, R214) -/

/-- HOST_ON_ERROR, the host's policy after an error; the spec leaves it open, so it is an argument (R214, D13). Which errors
`stop` covers is left open too: an error of a Step only is the model's DESIGN CHOICE (log entry 26). -/
inductive HostOnError where
  | goOn
  | stop
  deriving DecidableEq, Repr

/-- The reply reports an error of a step, as R252 (b) has it; the error of another operation does not count (DESIGN CHOICE, log
entry 26). -/
def HostReply.stepFailed : HostReply → Bool
  | .ok => false
  | .byte _ => false
  | .bytes _ => false
  | .pixels _ => false
  | .error _ => false
  | .stepError _ => true
  | .unmodelled _ => true

/-- The operations of a list in order: their replies and the last state. With `stop`, the host issues none after a step that
reported an error (R214), and goes on after a MemRange of another operation: DESIGN CHOICE, log entry 26. -/
def hostRun (policy : HostOnError) : List HostOp → State → List HostReply × State
  | [], s => ([], s)
  | op :: ops, s =>
    let (r, t) := hostOp op s
    if r.stepFailed && policy == .stop then ([r], t)
    else
      let (rs, u) := hostRun policy ops t
      (r :: rs, u)

end Sys2Proof.Machine
end

