-- ==== Sys2Proof/Safety.lean ====
section
/-!
DEFINITION. Safety.lean: what counts as a safe state and a safe run, in the terms the statements use: the invariant every
operation keeps, what an instruction may write (R23, R30), and the end conditions of a run (R252).
-/

namespace Sys2Proof.Machine

/-! ## The invariant -/

/-- The largest value a program can write to PC (R24). -/
def pcLimit : Nat := 0x10FE

/-- The largest value a call can push: PC after a fetch (R81, R122). -/
def returnLimit : Nat := 0x1000

/-- Every stack entry is at most the largest pushed value. -/
def stackBounded (s : State) : Prop := ∀ k : Fin 16, (s.stack.get k).toNat ≤ returnLimit

/-- The invariant of the core: memory keeps its canonical form, PC stays within the bound of R24, and so does every value a
return can bring back. -/
structure Invariant (s : State) : Prop where
  memWf : s.mem.wf = true
  pcBound : s.pc.toNat ≤ pcLimit
  stackBound : stackBounded s

/-! ## What an instruction may write (R23, R30) -/

/-- The flag-writing instructions of R23. -/
def writesFlag : Instr → Bool
  | .addReg _ _ => true
  | .subReg _ _ => true
  | .shr _ _ => true
  | .subnReg _ _ => true
  | .shl _ _ => true
  | .drw _ _ _ => true
  | .addI _ => true
  | .cls => false
  | .ret => false
  | .jp _ => false
  | .call _ => false
  | .seImm _ _ => false
  | .sneImm _ _ => false
  | .seReg _ _ => false
  | .ldImm _ _ => false
  | .addImm _ _ => false
  | .ldReg _ _ => false
  | .orReg _ _ => false
  | .andReg _ _ => false
  | .xorReg _ _ => false
  | .sneReg _ _ => false
  | .ldI _ => false
  | .jpV0 _ => false
  | .rnd _ _ => false
  | .skp _ => false
  | .sknp _ => false
  | .ldVxDT _ => false
  | .ldVxK _ => false
  | .ldDTVx _ => false
  | .ldSTVx _ => false
  | .ldF _ => false
  | .ldB _ => false
  | .storeRegs _ => false
  | .loadRegs _ => false

/-- The register an instruction names as its destination: x, or every register up to x for FX65. -/
def hasDest (i : Instr) (r : Reg) : Bool :=
  match i with
  | .ldImm x _ => r == x
  | .addImm x _ => r == x
  | .ldReg x _ => r == x
  | .orReg x _ => r == x
  | .andReg x _ => r == x
  | .xorReg x _ => r == x
  | .addReg x _ => r == x
  | .subReg x _ => r == x
  | .shr x _ => r == x
  | .subnReg x _ => r == x
  | .shl x _ => r == x
  | .rnd x _ => r == x
  | .ldVxDT x => r == x
  | .ldVxK x => r == x
  | .loadRegs x => decide (r ≤ x)
  | .cls => false
  | .ret => false
  | .jp _ => false
  | .call _ => false
  | .seImm _ _ => false
  | .sneImm _ _ => false
  | .seReg _ _ => false
  | .sneReg _ _ => false
  | .ldI _ => false
  | .jpV0 _ => false
  | .drw _ _ _ => false
  | .skp _ => false
  | .sknp _ => false
  | .ldDTVx _ => false
  | .ldSTVx _ => false
  | .addI _ => false
  | .ldF _ => false
  | .ldB _ => false
  | .storeRegs _ => false

/-- The registers an instruction may write: its destination, and VF if it writes a flag (R23). -/
def mayWrite (i : Instr) (r : Reg) : Bool := hasDest i r || (writesFlag i && r == VF)

/-- The bytes an instruction stores, in increasing address order from I on (R173, R174); the others store none (R30). -/
def stored (i : Instr) (s : State) : List Byte :=
  match i with
  | .ldB x => bcd (s.reg x)
  | .storeRegs x => s.regs.take (countOf x)
  | .cls => []
  | .ret => []
  | .jp _ => []
  | .call _ => []
  | .seImm _ _ => []
  | .sneImm _ _ => []
  | .seReg _ _ => []
  | .ldImm _ _ => []
  | .addImm _ _ => []
  | .ldReg _ _ => []
  | .orReg _ _ => []
  | .andReg _ _ => []
  | .xorReg _ _ => []
  | .addReg _ _ => []
  | .subReg _ _ => []
  | .shr _ _ => []
  | .subnReg _ _ => []
  | .shl _ _ => []
  | .sneReg _ _ => []
  | .ldI _ => []
  | .jpV0 _ => []
  | .rnd _ _ => []
  | .drw _ _ _ => []
  | .skp _ => []
  | .sknp _ => []
  | .ldVxDT _ => []
  | .ldVxK _ => []
  | .ldDTVx _ => []
  | .ldSTVx _ => []
  | .addI _ => []
  | .ldF _ => []
  | .loadRegs _ => []

/-! ## Sprites as sets of pixels (R101) -/

/-- The sprite DXYN draws in state s has a 1 at column c and row r: column c is one of the eight columns from the start column
on, row r one of the n rows from the start row on, and the bit there of the byte at I + (r - start row) is 1, bit 7 being the
leftmost. -/
def spriteBit (s : State) (x y : Reg) (n c r : Nat) : Bool :=
  decide (s.startCol x ≤ c) && decide (c < s.startCol x + 8) && decide (s.startRow y ≤ r) && decide (r < s.startRow y + n) &&
    (s.mem.get (s.i.toNat + (r - s.startRow y))).getLsbD (s.startCol x + 7 - c)

/-- A column and a row inside the display. -/
def onDisplay (d : Display) (c r : Nat) : Prop := c < d.size.w ∧ r < d.size.h

/-! ## Encodings -/

/-- The instruction's word has the fixed bits of its rule, and decodes to the instruction. -/
def encodedAs (i : Instr) (pattern mask : Word) : Prop := encode i &&& mask = pattern ∧ decode (encode i) = some i

/-! ## Runs of meanings -/

/-- The instructions of a list one after another, each on the state the one before it leaves, with no fetch between them; the
first that does not answer a next state ends the run with its answer. -/
def execAll : List Instr → State → Result
  | [], s => .next s
  | i :: is, s =>
    match exec i s with
    | .next t => execAll is t
    | .fault f => .fault f
    | .refused r => .refused r

/-! ## The end conditions of a run (R252) -/

/-- (a) idle loop: PC <= 0xFFE and the word at PC jumps to itself; the only normal end. -/
def idle (s : State) : Bool := decide (s.pc.toNat ≤ 0xFFE) && s.wordAtPC == 0x1000#16 + s.pc

/-- (b) fault: the step reported an error. -/
def failed : Result → Bool
  | .next _ => false
  | .fault _ => true
  | .refused _ => true

/-- (c) waiting: the word at PC is FX0A and no key is released. -/
def waiting (s : State) : Bool :=
  decide (s.pc.toNat ≤ 0xFFE) && (s.wordAtPC &&& 0xF0FF#16) == 0xF00A#16 && s.leastReleased == none

/-- A run of k steps is safe when none of them reports an error. -/
def safeFor (k : Nat) (s : State) : Prop := ∃ t, Sys2Proof.core.run k s = .next t

end Sys2Proof.Machine
end

