-- ==== Sys2Proof/Certificates/Slice0/Obligations.lean ====
section
/-!
DEFINITION. Certificates/Slice0/Obligations.lean: the statements for the provers. `exec i s` runs on the state just after the
fetch, whose PC holds the instruction's address plus 2. A frame is written `t = { s with f := t.f, ... }`: every field of the
state that is not named there is unchanged, all of memory among them.
-/

open Sys2Proof Sys2Proof.Machine

/-! ## Encoding and decoding -/

/-- Decode and encode agree: no operand bit of an encoding is dropped (R82, R84, R85). -/
def Obligations.DecodeOfEncodeIsTheInstruction : Prop :=
  ∀ i : Instr, i.wellFormed = true → decode (encode i) = some i

/-- The other direction: a word that decodes is the encoding of its instruction, so no second word decodes to it, and decode
answers well-formed instructions only. Exactness on every fixed bit is the spec's decision D14 (log entry 6). -/
def Obligations.DecodedWordIsItsEncoding : Prop :=
  ∀ (w : Word) (i : Instr), decode w = some i → encode i = w ∧ i.wellFormed = true

/-- Every row of the opcode map, in its match and mask form, decodes to its instruction with the fields of R82 (R84, R85; D14,
log entry 6). -/
def Obligations.EveryTableRowDecodesWithItsFields : Prop :=
  ∀ w : Word,
    (w = 0x00E0#16 → decode w = some .cls) ∧ (w = 0x00EE#16 → decode w = some .ret) ∧
    (w &&& 0xF000#16 = 0x1000#16 → decode w = some (.jp (w.extractLsb' 0 12))) ∧
    (w &&& 0xF000#16 = 0x2000#16 → decode w = some (.call (w.extractLsb' 0 12))) ∧
    (w &&& 0xF000#16 = 0x3000#16 → decode w = some (.seImm (w.extractLsb' 8 4).toFin (w.extractLsb' 0 8))) ∧
    (w &&& 0xF000#16 = 0x4000#16 → decode w = some (.sneImm (w.extractLsb' 8 4).toFin (w.extractLsb' 0 8))) ∧
    (w &&& 0xF00F#16 = 0x5000#16 → decode w = some (.seReg (w.extractLsb' 8 4).toFin (w.extractLsb' 4 4).toFin)) ∧
    (w &&& 0xF000#16 = 0x6000#16 → decode w = some (.ldImm (w.extractLsb' 8 4).toFin (w.extractLsb' 0 8))) ∧
    (w &&& 0xF000#16 = 0x7000#16 → decode w = some (.addImm (w.extractLsb' 8 4).toFin (w.extractLsb' 0 8))) ∧
    (w &&& 0xF00F#16 = 0x8000#16 → decode w = some (.ldReg (w.extractLsb' 8 4).toFin (w.extractLsb' 4 4).toFin)) ∧
    (w &&& 0xF00F#16 = 0x8001#16 → decode w = some (.orReg (w.extractLsb' 8 4).toFin (w.extractLsb' 4 4).toFin)) ∧
    (w &&& 0xF00F#16 = 0x8002#16 → decode w = some (.andReg (w.extractLsb' 8 4).toFin (w.extractLsb' 4 4).toFin)) ∧
    (w &&& 0xF00F#16 = 0x8003#16 → decode w = some (.xorReg (w.extractLsb' 8 4).toFin (w.extractLsb' 4 4).toFin)) ∧
    (w &&& 0xF00F#16 = 0x8004#16 → decode w = some (.addReg (w.extractLsb' 8 4).toFin (w.extractLsb' 4 4).toFin)) ∧
    (w &&& 0xF00F#16 = 0x8005#16 → decode w = some (.subReg (w.extractLsb' 8 4).toFin (w.extractLsb' 4 4).toFin)) ∧
    (w &&& 0xF00F#16 = 0x8006#16 → decode w = some (.shr (w.extractLsb' 8 4).toFin (w.extractLsb' 4 4).toFin)) ∧
    (w &&& 0xF00F#16 = 0x8007#16 → decode w = some (.subnReg (w.extractLsb' 8 4).toFin (w.extractLsb' 4 4).toFin)) ∧
    (w &&& 0xF00F#16 = 0x800E#16 → decode w = some (.shl (w.extractLsb' 8 4).toFin (w.extractLsb' 4 4).toFin)) ∧
    (w &&& 0xF00F#16 = 0x9000#16 → decode w = some (.sneReg (w.extractLsb' 8 4).toFin (w.extractLsb' 4 4).toFin)) ∧
    (w &&& 0xF000#16 = 0xA000#16 → decode w = some (.ldI (w.extractLsb' 0 12))) ∧
    (w &&& 0xF000#16 = 0xB000#16 → decode w = some (.jpV0 (w.extractLsb' 0 12))) ∧
    (w &&& 0xF000#16 = 0xC000#16 → decode w = some (.rnd (w.extractLsb' 8 4).toFin (w.extractLsb' 0 8))) ∧
    (w &&& 0xF000#16 = 0xD000#16 →
      decode w = some (.drw (w.extractLsb' 8 4).toFin (w.extractLsb' 4 4).toFin (w.extractLsb' 0 4).toNat)) ∧
    (w &&& 0xF0FF#16 = 0xE09E#16 → decode w = some (.skp (w.extractLsb' 8 4).toFin)) ∧
    (w &&& 0xF0FF#16 = 0xE0A1#16 → decode w = some (.sknp (w.extractLsb' 8 4).toFin)) ∧
    (w &&& 0xF0FF#16 = 0xF007#16 → decode w = some (.ldVxDT (w.extractLsb' 8 4).toFin)) ∧
    (w &&& 0xF0FF#16 = 0xF00A#16 → decode w = some (.ldVxK (w.extractLsb' 8 4).toFin)) ∧
    (w &&& 0xF0FF#16 = 0xF015#16 → decode w = some (.ldDTVx (w.extractLsb' 8 4).toFin)) ∧
    (w &&& 0xF0FF#16 = 0xF018#16 → decode w = some (.ldSTVx (w.extractLsb' 8 4).toFin)) ∧
    (w &&& 0xF0FF#16 = 0xF01E#16 → decode w = some (.addI (w.extractLsb' 8 4).toFin)) ∧
    (w &&& 0xF0FF#16 = 0xF029#16 → decode w = some (.ldF (w.extractLsb' 8 4).toFin)) ∧
    (w &&& 0xF0FF#16 = 0xF033#16 → decode w = some (.ldB (w.extractLsb' 8 4).toFin)) ∧
    (w &&& 0xF0FF#16 = 0xF055#16 → decode w = some (.storeRegs (w.extractLsb' 8 4).toFin)) ∧
    (w &&& 0xF0FF#16 = 0xF065#16 → decode w = some (.loadRegs (w.extractLsb' 8 4).toFin))

/-- Exactly the words of R86's table are invalid, category by category (D14, log entry 6). -/
def Obligations.UnlistedWordsAreInvalid : Prop :=
  ∀ w : Word, decode w = none ↔
    (w.toNat / 4096 = 0x0 ∧ w ≠ 0x00E0#16 ∧ w ≠ 0x00EE#16) ∨
    (w.toNat / 4096 = 0x5 ∧ w.toNat % 16 ≠ 0) ∨
    (w.toNat / 4096 = 0x8 ∧ w.toNat % 16 ∈ [0x8, 0x9, 0xA, 0xB, 0xC, 0xD, 0xF]) ∨
    (w.toNat / 4096 = 0x9 ∧ w.toNat % 16 ≠ 0) ∨
    (w.toNat / 4096 = 0xE ∧ w.toNat % 256 ∉ [0x9E, 0xA1]) ∨
    (w.toNat / 4096 = 0xF ∧ w.toNat % 256 ∉ [0x07, 0x0A, 0x15, 0x18, 0x1E, 0x29, 0x33, 0x55, 0x65])

/-- Every word matches at most one row of the opcode table (R85, derived there from the table). -/
def Obligations.NoWordFitsTwoTableRows : Prop :=
  ∀ (w : Word) (r r' : OpRow), r ∈ opcodeTable → r' ∈ opcodeTable → r.fits w = true → r'.fits w = true → r = r'

/-- Words written out bit by bit from the formats of R84 decode to the instruction they stand for. -/
def Obligations.KnownWordsDecode : Prop :=
  decode 0b0000000011100000#16 = some .cls ∧
  decode 0b0010001000010000#16 = some (.call 0x210#12) ∧
  decode 0b0111000000001010#16 = some (.addImm 0 0x0A#8) ∧
  decode 0b1000000100100111#16 = some (.subnReg 1 2) ∧
  decode 0b1101000000010010#16 = some (.drw 0 1 2) ∧
  decode 0b1110010110100001#16 = some (.sknp 5) ∧
  decode 0b1111101000110011#16 = some (.ldB 10) ∧
  decode 0b0000000000000000#16 = none

/-! ## The step -/

/-- Step is fetch, decode, execute: a decoded instruction runs on the state with PC advanced by 2, an invalid word and a failed
fetch end the step with their error (R80), whose `at` is PC at the start of the step (D11; log entry 5, DEDUCED). -/
def Obligations.StepRunsTheDecodedInstruction : Prop :=
  ∀ s : State,
    (∀ i, inRange s.pc.toNat 2 = true → decode (s.mem.get s.pc.toNat ++ s.mem.get (s.pc.toNat + 1)) = some i →
      step s = exec i { s with pc := s.pc + 2 }) ∧
    (inRange s.pc.toNat 2 = true → decode (s.mem.get s.pc.toNat ++ s.mem.get (s.pc.toNat + 1)) = none →
      step s = .fault (.invalidOpcode s.pc (s.mem.get s.pc.toNat ++ s.mem.get (s.pc.toNat + 1)))) ∧
    (inRange s.pc.toNat 2 = false → step s = .fault (.memRange s.pc s.pc.toNat 2))

/-- A word placed for the next fetch is the one the next step runs (the model's own entry point; log entry 18). -/
def Obligations.PlacedWordIsExecuted : Prop :=
  ∀ (s : State) (w : Word) (i : Instr), s.mem.wf = true → decodeTableWord 16 w.toNat = some i →
    step (s.withFetchWord 16 w.toNat) = exec i (s.withFetchWord 16 w.toNat).advance ∧
    (inRange s.pc.toNat 2 = true → s.withFetchWord 16 w.toNat = { s with mem := (s.withFetchWord 16 w.toNat).mem })

/-- Every instruction is modelled: no step is refused, and no instruction is (R87). -/
def Obligations.NothingIsRefused : Prop :=
  ∀ (i : Instr) (s : State) (r : Refusal), exec i s ≠ .refused r ∧ step s ≠ .refused r

/-- The execute phase raises exactly the errors of R211's table, under exactly their conditions. The conditions of EX9E and
EXA1 are the spec's decision D15 (log entry 13), that of DXYN with no row D18 (log entry 11); `at` is PC - 2 (D11; log entry 5,
DEDUCED). -/
def Obligations.ExecuteFaultsExactlyAsListed : Prop :=
  ∀ (i : Instr) (s : State) (f : Fault), exec i s = .fault f ↔
    (i = .ret ∧ s.sp = 0 ∧ f = .stackUnderflow (s.pc - 2)) ∨
    (∃ nnn, i = .call nnn ∧ s.sp = 16 ∧ f = .stackOverflow (s.pc - 2)) ∨
    (∃ x y n, i = .drw x y n ∧ ¬ (s.i.toNat < 4096 ∧ s.i.toNat + n ≤ 4096) ∧ f = .memRange (s.pc - 2) s.i.toNat n) ∨
    (∃ x, i = .ldB x ∧ ¬ (s.i.toNat < 4096 ∧ s.i.toNat + 3 ≤ 4096) ∧ f = .memRange (s.pc - 2) s.i.toNat 3) ∨
    (∃ x : Reg, (i = .storeRegs x ∨ i = .loadRegs x) ∧ ¬ (s.i.toNat < 4096 ∧ s.i.toNat + (x.val + 1) ≤ 4096) ∧
      f = .memRange (s.pc - 2) s.i.toNat (x.val + 1)) ∨
    (∃ x, (i = .skp x ∨ i = .sknp x) ∧ 15 < (s.reg x).toNat ∧ f = .keyRange (s.pc - 2) (s.reg x))

/-- What an error leaves (R212, R214; D12, log entry 4): a failed fetch changes nothing, so Step reports the same error again;
a later error leaves the fetch's advance only; the report says where PC was; and an error of another host operation changes
nothing. -/
def Obligations.ErrorsLeaveOnlyTheFetchAdvance : Prop :=
  ∀ s : State,
    (∀ (b : Byte) (f : Fault), (hostOp (.step b) s).1 = .stepError f → f.pcAt = s.pc ∧
      (inRange s.pc.toNat 2 = false → (hostOp (.step b) s).2 = s ∧ f.error = .memRange s.pc.toNat 2) ∧
      (inRange s.pc.toNat 2 = true → (hostOp (.step b) s).2 = { s with pc := s.pc + 2 })) ∧
    (∀ (op : HostOp) (e : Error), (hostOp op s).1 = .error e → (hostOp op s).2 = s)

/-! ## 42_alu.md -/

/-- 6XNN, 7XNN and 8XY0 (R140, R141, R142): they complete on every operand, write V[x] and nothing else; VF only as V[x]. -/
def Obligations.LoadAddAndCopyWriteVxOnly : Prop :=
  ∀ (x y : Reg) (nn : Byte) (s : State),
    (encodedAs (.ldImm x nn) 0x6000#16 0xF000#16 ∧ ∃ t, exec (.ldImm x nn) s = .next t ∧ t = { s with v := t.v } ∧
      t.reg x = nn ∧ ∀ r, r ≠ x → t.reg r = s.reg r) ∧
    (encodedAs (.addImm x nn) 0x7000#16 0xF000#16 ∧ ∃ t, exec (.addImm x nn) s = .next t ∧ t = { s with v := t.v } ∧
      (t.reg x).toNat = ((s.reg x).toNat + nn.toNat) % 256 ∧ ∀ r, r ≠ x → t.reg r = s.reg r) ∧
    (encodedAs (.ldReg x y) 0x8000#16 0xF00F#16 ∧ ∃ t, exec (.ldReg x y) s = .next t ∧ t = { s with v := t.v } ∧
      t.reg x = s.reg y ∧ ∀ r, r ≠ x → t.reg r = s.reg r)

/-- 8XY1, 8XY2 and 8XY3 (R143 to R145): bit k of V[x] is the OR, AND, XOR of the operands' bits k; VF is not written unless it is
V[x], which is the spec's decision D34 (log entry 10). -/
def Obligations.LogicWritesVxOnly : Prop :=
  ∀ (x y : Reg) (s : State),
    (∃ t, exec (.orReg x y) s = .next t ∧ t = { s with v := t.v } ∧
      (∀ k, (t.reg x).getLsbD k = ((s.reg x).getLsbD k || (s.reg y).getLsbD k)) ∧ ∀ r, r ≠ x → t.reg r = s.reg r) ∧
    (∃ t, exec (.andReg x y) s = .next t ∧ t = { s with v := t.v } ∧
      (∀ k, (t.reg x).getLsbD k = ((s.reg x).getLsbD k && (s.reg y).getLsbD k)) ∧ ∀ r, r ≠ x → t.reg r = s.reg r) ∧
    (∃ t, exec (.xorReg x y) s = .next t ∧ t = { s with v := t.v } ∧
      (∀ k, (t.reg x).getLsbD k = ((s.reg x).getLsbD k ^^ (s.reg y).getLsbD k)) ∧ ∀ r, r ≠ x → t.reg r = s.reg r)

/-- 8XY4, 8XY5 and 8XY7 (R146, R147, R149): the result modulo 256, and VF as the carry or not-borrow flag of the OLD operands.
With x = 0xF the flag is what VF holds: the spec's decision D7 (R153; log entry 7). -/
def Obligations.AddAndSubtractSetTheFlag : Prop :=
  ∀ (x y : Reg) (s : State),
    (∃ t, exec (.addReg x y) s = .next t ∧ t = { s with v := t.v } ∧
      (x ≠ VF → (t.reg x).toNat = ((s.reg x).toNat + (s.reg y).toNat) % 256) ∧
      t.reg VF = (if (s.reg x).toNat + (s.reg y).toNat > 255 then 1 else 0) ∧
      ∀ r, r ≠ x → r ≠ VF → t.reg r = s.reg r) ∧
    (∃ t, exec (.subReg x y) s = .next t ∧ t = { s with v := t.v } ∧
      (x ≠ VF → (t.reg x).toNat = ((s.reg x).toNat + 256 - (s.reg y).toNat) % 256) ∧
      t.reg VF = (if (s.reg x).toNat ≥ (s.reg y).toNat then 1 else 0) ∧
      ∀ r, r ≠ x → r ≠ VF → t.reg r = s.reg r) ∧
    (∃ t, exec (.subnReg x y) s = .next t ∧ t = { s with v := t.v } ∧
      (x ≠ VF → (t.reg x).toNat = ((s.reg y).toNat + 256 - (s.reg x).toNat) % 256) ∧
      t.reg VF = (if (s.reg y).toNat ≥ (s.reg x).toNat then 1 else 0) ∧
      ∀ r, r ≠ x → r ≠ VF → t.reg r = s.reg r)

/-- 8XY6 and 8XYE (R148, R150): the source is V[x] with QUIRK = 1 and V[y] with QUIRK = 0, which is the spec's decision D5 (log
entry 9); VF is the bit shifted out, written last (D7, log entry 7). -/
def Obligations.ShiftsMoveTheSourceByOne : Prop :=
  ∀ (x y : Reg) (s : State) (src : Byte), src = (if s.quirk = true then s.reg x else s.reg y) →
    (∃ t, exec (.shr x y) s = .next t ∧ t = { s with v := t.v } ∧ (x ≠ VF → (t.reg x).toNat = src.toNat / 2) ∧
      (t.reg VF).toNat = src.toNat % 2 ∧ ∀ r, r ≠ x → r ≠ VF → t.reg r = s.reg r) ∧
    (∃ t, exec (.shl x y) s = .next t ∧ t = { s with v := t.v } ∧ (x ≠ VF → (t.reg x).toNat = src.toNat * 2 % 256) ∧
      (t.reg VF).toNat = src.toNat / 128 ∧ ∀ r, r ≠ x → r ≠ VF → t.reg r = s.reg r)

/-- CXNN (R151; D22, log entry 3): V[x] is nn AND the byte the random source supplies, an injected one or a FREE one, and the
source moves on by one byte; the statement holds for every value of the free byte. -/
def Obligations.RandomMasksTheSuppliedByte : Prop :=
  ∀ (x : Reg) (nn : Byte) (s : State), ∃ t, exec (.rnd x nn) s = .next t ∧
    t = { s with v := t.v, rndIn := t.rndIn, rndCount := t.rndCount } ∧ (∀ r, r ≠ x → t.reg r = s.reg r) ∧
    (∀ b bs, s.rndIn = b :: bs → t.reg x = nn &&& b ∧ t.rndIn = bs ∧ t.rndCount = s.rndCount) ∧
    (s.rndIn = [] → t.reg x = nn &&& Config.freeByte s.rndCount ∧ t.rndIn = [] ∧ t.rndCount = s.rndCount + 1) ∧
    (nn = 0 → t.reg x = 0)

/-- Step(RND) on a CXNN word (R80, R151; D22, log entry 3): for EVERY byte RND of the host, V[x] is nn AND RND, PC moves on, and
the random source is left as it was. -/
def Obligations.RandomStepMasksTheHostsByte : Prop :=
  ∀ (rnd : Byte) (s : State) (x : Reg) (nn : Byte), inRange s.pc.toNat 2 = true →
    decode (s.mem.get s.pc.toNat ++ s.mem.get (s.pc.toNat + 1)) = some (.rnd x nn) →
    ∃ t, hostOp (.step rnd) s = (.ok, t) ∧ t = { s with pc := s.pc + 2, v := t.v } ∧ t.reg x = nn &&& rnd ∧
      ∀ r, r ≠ x → t.reg r = s.reg r

/-! ## 41_control.md -/

/-- 1NNN (R121): PC is nnn, nothing else changes. -/
def Obligations.JumpGoesToNnn : Prop :=
  ∀ (nnn : Addr12) (s : State), encodedAs (.jp nnn) 0x1000#16 0xF000#16 ∧
    ∃ t, exec (.jp nnn) s = .next t ∧ t = { s with pc := t.pc } ∧ t.pc.toNat = nnn.toNat

/-- 2NNN (R122): with room, PC (the address of the instruction after the call) goes to STACK[SP], SP counts it and PC is nnn;
with SP = 16, StackOverflow with `at` = PC - 2 (D11; log entry 5, DEDUCED) and nothing has changed since the fetch, which is the
spec's decision D12 (R212, log entry 4). -/
def Obligations.CallPushesTheReturnAddress : Prop :=
  ∀ (nnn : Addr12) (s : State), encodedAs (.call nnn) 0x2000#16 0xF000#16 ∧
    (s.sp.val < 16 → ∃ t, exec (.call nnn) s = .next t ∧ t = { s with pc := t.pc, stack := t.stack, sp := t.sp } ∧
      t.pc.toNat = nnn.toNat ∧ t.sp.val = s.sp.val + 1 ∧
      ∀ k : Fin 16, t.stack.get k = if k.val = s.sp.val then s.pc else s.stack.get k) ∧
    (s.sp.val = 16 → exec (.call nnn) s = .fault (.stackOverflow (s.pc - 2)) ∧ stateLeft s (exec (.call nnn) s) = s)

/-- 00EE (R120): with an entry in use, SP goes down by one and PC is STACK[SP], which keeps its value, the spec's decision D30
(R26, log entry 19); with SP = 0, StackUnderflow with `at` = PC - 2 (D11; log entry 5, DEDUCED) and nothing has changed since the
fetch, the spec's decision D12 (R212, log entry 4). -/
def Obligations.ReturnPopsTheReturnAddress : Prop :=
  encodedAs .ret 0x00EE#16 0xFFFF#16 ∧ ∀ s : State,
    (0 < s.sp.val → ∃ t, exec .ret s = .next t ∧ t = { s with pc := t.pc, sp := t.sp } ∧ t.sp.val + 1 = s.sp.val ∧
      ∀ k : Fin 16, k.val = t.sp.val → t.pc = s.stack.get k) ∧
    (s.sp.val = 0 → exec .ret s = .fault (.stackUnderflow (s.pc - 2)) ∧ stateLeft s (exec .ret s) = s)

/-- 3XNN, 4XNN, 5XY0 and 9XY0 (R123 to R126): PC goes 2 further when the condition holds and nothing else ever changes. -/
def Obligations.SkipsAdvanceOnTheirCondition : Prop :=
  ∀ (x y : Reg) (nn : Byte) (s : State),
    (encodedAs (.seImm x nn) 0x3000#16 0xF000#16 ∧
      exec (.seImm x nn) s = .next { s with pc := if s.reg x = nn then s.pc + 2 else s.pc }) ∧
    (encodedAs (.sneImm x nn) 0x4000#16 0xF000#16 ∧
      exec (.sneImm x nn) s = .next { s with pc := if s.reg x ≠ nn then s.pc + 2 else s.pc }) ∧
    (encodedAs (.seReg x y) 0x5000#16 0xF00F#16 ∧
      exec (.seReg x y) s = .next { s with pc := if s.reg x = s.reg y then s.pc + 2 else s.pc }) ∧
    (encodedAs (.sneReg x y) 0x9000#16 0xF00F#16 ∧
      exec (.sneReg x y) s = .next { s with pc := if s.reg x ≠ s.reg y then s.pc + 2 else s.pc })

/-- BNNN (R127): PC is nnn plus the offset, V[nnn[11:8]] with QUIRK = 1 and V[0] with QUIRK = 0; the sum is reduced neither
modulo 4096 nor, since it never exceeds 0x10FE, modulo 2^16. -/
def Obligations.JumpOffsetAddsTheQuirkRegister : Prop :=
  ∀ (nnn : Addr12) (s : State), encodedAs (.jpV0 nnn) 0xB000#16 0xF000#16 ∧
    ∃ t, exec (.jpV0 nnn) s = .next t ∧ t = { s with pc := t.pc } ∧ t.pc.toNat ≤ 0x10FE ∧
      (s.quirk = false → t.pc.toNat = nnn.toNat + (s.reg 0).toNat) ∧
      (s.quirk = true → ∀ x : Reg, x.val = nnn.toNat / 256 → t.pc.toNat = nnn.toNat + (s.reg x).toNat)

/-- Nested calls return in LIFO order (R120, R122, R129): any calls that fit above SP, followed by as many returns, end with PC
and SP as before the first of them, and with the entries in use unchanged. -/
def Obligations.NestedCallsReturnInOrder : Prop :=
  ∀ (targets : List Addr12) (s : State), s.sp.val + targets.length ≤ 16 →
    ∃ t, execAll (targets.map Instr.call ++ List.replicate targets.length Instr.ret) s = .next t ∧
      t = { s with stack := t.stack } ∧ ∀ k : Fin 16, k.val < s.sp.val → t.stack.get k = s.stack.get k

/-! ## 43_index_memory.md -/

/-- ANNN and FX29 (R170, R172): I is nnn, or V[x] * 5 with no base and no mask; nothing else changes. -/
def Obligations.LoadIndexAndGlyphAddress : Prop :=
  ∀ (nnn : Addr12) (x : Reg) (s : State),
    (encodedAs (.ldI nnn) 0xA000#16 0xF000#16 ∧ ∃ t, exec (.ldI nnn) s = .next t ∧ t = { s with i := t.i } ∧
      t.i.toNat = nnn.toNat) ∧
    (encodedAs (.ldF x) 0xF029#16 0xF0FF#16 ∧ ∃ t, exec (.ldF x) s = .next t ∧ t = { s with i := t.i } ∧
      t.i.toNat = (s.reg x).toNat * 5)

/-- FX1E (R171): I is the sum modulo 2^16 (D9), VF is 1 exactly when I crosses from at most 0xFFF to above it and 0 otherwise
(D8), and with x = 0xF the addend is the old VF (D6, D7): the spec's decisions, log entries 7 and 8. -/
def Obligations.AddToIndexReportsTheCrossing : Prop :=
  ∀ (x : Reg) (s : State), ∃ t, exec (.addI x) s = .next t ∧ t = { s with i := t.i, v := t.v } ∧
    t.i.toNat = (s.i.toNat + (s.reg x).toNat) % 65536 ∧
    t.reg VF = (if s.i.toNat ≤ 0xFFF ∧ s.i.toNat + (s.reg x).toNat > 0xFFF then 1 else 0) ∧
    ∀ r, r ≠ VF → t.reg r = s.reg r

/-- FX33 (R173): the hundreds, tens and ones of V[x] go to I, I+1, I+2 and every other byte reads as before; out of range,
MemRange(I, 3) with `at` = PC - 2 (D11; log entry 5, DEDUCED) and nothing has changed since the fetch, which is the spec's
decision D12 (R57, R212; log entry 4). -/
def Obligations.BcdStoresThreeDigits : Prop :=
  ∀ (x : Reg) (s : State), s.mem.wf = true → encodedAs (.ldB x) 0xF033#16 0xF0FF#16 ∧
    (s.i.toNat < 4096 ∧ s.i.toNat + 3 ≤ 4096 → ∃ t, exec (.ldB x) s = .next t ∧ t = { s with mem := t.mem } ∧
      (t.mem.get s.i.toNat).toNat = (s.reg x).toNat / 100 ∧
      (t.mem.get (s.i.toNat + 1)).toNat = (s.reg x).toNat / 10 % 10 ∧
      (t.mem.get (s.i.toNat + 2)).toNat = (s.reg x).toNat % 10 ∧
      ∀ a, (a < s.i.toNat ∨ s.i.toNat + 3 ≤ a) → t.mem.get a = s.mem.get a) ∧
    (¬ (s.i.toNat < 4096 ∧ s.i.toNat + 3 ≤ 4096) →
      exec (.ldB x) s = .fault (.memRange (s.pc - 2) s.i.toNat 3) ∧ stateLeft s (exec (.ldB x) s) = s)

/-- FX55 (R174): V[k] goes to I + k for k = 0..x and every other byte reads as before; I advances by x + 1 with QUIRK = 0 and
stays with QUIRK = 1. Out of range, MemRange(I, x + 1) with `at` = PC - 2 (D11; log entry 5, DEDUCED) and nothing has changed
since the fetch: the spec's decision D12 (log entry 4). -/
def Obligations.StoreRegistersAtIndex : Prop :=
  ∀ (x : Reg) (s : State), s.mem.wf = true →
    (s.i.toNat < 4096 ∧ s.i.toNat + (x.val + 1) ≤ 4096 →
      ∃ t, exec (.storeRegs x) s = .next t ∧ t = { s with mem := t.mem, i := t.i } ∧
        (∀ k : Reg, k ≤ x → t.mem.get (s.i.toNat + k.val) = s.reg k) ∧
        (∀ a, (a < s.i.toNat ∨ s.i.toNat + (x.val + 1) ≤ a) → t.mem.get a = s.mem.get a) ∧
        t.i.toNat = (if s.quirk = true then s.i.toNat else s.i.toNat + x.val + 1)) ∧
    (¬ (s.i.toNat < 4096 ∧ s.i.toNat + (x.val + 1) ≤ 4096) →
      exec (.storeRegs x) s = .fault (.memRange (s.pc - 2) s.i.toNat (x.val + 1)) ∧
        stateLeft s (exec (.storeRegs x) s) = s)

/-- FX65 (R175): V[k] is the byte at I + k for k = 0..x and every register above V[x] is unchanged; I as for FX55. Out of range,
MemRange(I, x + 1) with `at` = PC - 2 (D11; log entry 5, DEDUCED) and nothing has changed since the fetch: the spec's decision D12
(log entry 4). -/
def Obligations.LoadRegistersFromIndex : Prop :=
  ∀ (x : Reg) (s : State),
    (s.i.toNat < 4096 ∧ s.i.toNat + (x.val + 1) ≤ 4096 →
      ∃ t, exec (.loadRegs x) s = .next t ∧ t = { s with v := t.v, i := t.i } ∧
        (∀ k : Reg, k ≤ x → t.reg k = s.mem.get (s.i.toNat + k.val)) ∧ (∀ k : Reg, x < k → t.reg k = s.reg k) ∧
        t.i.toNat = (if s.quirk = true then s.i.toNat else s.i.toNat + x.val + 1)) ∧
    (¬ (s.i.toNat < 4096 ∧ s.i.toNat + (x.val + 1) ≤ 4096) →
      exec (.loadRegs x) s = .fault (.memRange (s.pc - 2) s.i.toNat (x.val + 1)) ∧
        stateLeft s (exec (.loadRegs x) s) = s)

/-- FX55 and then FX65 from the same I bring the registers back, whatever the registers held in between (R174, R175). -/
def Obligations.StoreThenLoadRestoresRegisters : Prop :=
  ∀ (x : Reg) (s t : State) (v : Vector Byte 16), s.mem.wf = true → exec (.storeRegs x) s = .next t →
    ∃ u, exec (.loadRegs x) { t with v := v, i := s.i } = .next u ∧ u.mem = t.mem ∧ ∀ k : Reg, k ≤ x → u.reg k = s.reg k

/-- A store into the word at PC is what the next fetch reads (R63, derived there): code is ordinary memory. -/
def Obligations.StoredWordIsTheNextFetched : Prop :=
  ∀ (x : Reg) (s t : State), s.mem.wf = true → 1 ≤ x.val → s.i = s.pc → exec (.storeRegs x) s = .next t →
    fetch t = .ok (s.reg 0 ++ s.reg 1, { t with pc := s.pc + 2 })

/-! ## 40_display.md -/

/-- 00E0 (R100): every pixel is 0 and nothing else changes, on every display. -/
def Obligations.ClearZeroesEveryPixel : Prop :=
  encodedAs .cls 0x00E0#16 0xFFFF#16 ∧ ∀ s : State, ∃ t, exec .cls s = .next t ∧ t = { s with disp := t.disp } ∧
    t.disp.size = s.disp.size ∧ ∀ c r, onDisplay s.disp c r → t.disp.pixel c r = false

/-- DXYN (R101; D6, D7, D18, log entries 7 and 11): every pixel of the display is its old value XOR the sprite's bit there, VF is
1 exactly when some set pixel meets a 1 of the sprite, and nothing else changes; out of range, MemRange(I, n) with `at` =
PC - 2 (D11; log entry 5, DEDUCED) and nothing has changed since the fetch (D12, log entry 4). It holds on a display of every
size (R6), with x or y = 0xF, the coordinate being the old VF, and with no row. -/
def Obligations.DrawXorsTheSprite : Prop :=
  ∀ (x y : Reg) (n : Nat) (s : State),
    (s.i.toNat < 4096 ∧ s.i.toNat + n ≤ 4096 →
      ∃ t, exec (.drw x y n) s = .next t ∧ t = { s with disp := t.disp, v := t.v } ∧
        (∀ r, r ≠ VF → t.reg r = s.reg r) ∧
        t.disp.size = s.disp.size ∧
        (∀ c r, onDisplay s.disp c r → t.disp.pixel c r = (s.disp.pixel c r ^^ spriteBit s x y n c r)) ∧
        ((∃ c r, onDisplay s.disp c r ∧ s.disp.pixel c r = true ∧ spriteBit s x y n c r = true) → t.reg VF = 1) ∧
        ((∀ c r, onDisplay s.disp c r → s.disp.pixel c r = true → spriteBit s x y n c r = false) → t.reg VF = 0)) ∧
    (¬ (s.i.toNat < 4096 ∧ s.i.toNat + n ≤ 4096) →
      exec (.drw x y n) s = .fault (.memRange (s.pc - 2) s.i.toNat n) ∧ stateLeft s (exec (.drw x y n) s) = s)

/-- Drawing the same sprite twice at the same position restores the display; the second draw reports VF = 1 exactly when the
first turned some pixel on. On a clear display the first reports 0 and the second 1 exactly when the sprite has a 1 inside the
display (R102 (a), derived there; log entry 20 on its wording). -/
def Obligations.DrawTwiceRestoresTheDisplay : Prop :=
  ∀ (x y : Reg) (n : Nat) (s t : State), exec (.drw x y n) s = .next t → t.reg x = s.reg x → t.reg y = s.reg y →
    ∃ u, exec (.drw x y n) t = .next u ∧ u.disp = s.disp ∧
      (u.reg VF = 1 ↔ ∃ c r, onDisplay s.disp c r ∧ s.disp.pixel c r = false ∧ t.disp.pixel c r = true) ∧
      ((∀ c r, onDisplay s.disp c r → s.disp.pixel c r = false) →
        t.reg VF = 0 ∧ (u.reg VF = 1 ↔ ∃ c r, onDisplay s.disp c r ∧ spriteBit s x y n c r = true))

/-- DXYN changes no pixel outside the sprite's box: its eight columns from the start column and its n rows from the start row,
clipped at the right and bottom edges, so that nothing reappears at the opposite edge (R102 (b) and (c), derived there). -/
def Obligations.DrawStaysInsideItsBox : Prop :=
  ∀ (x y : Reg) (n : Nat) (s t : State) (c r : Nat), exec (.drw x y n) s = .next t →
    t.disp.pixel c r ≠ s.disp.pixel c r →
    (s.reg x).toNat % s.disp.size.w ≤ c ∧ c ≤ min ((s.reg x).toNat % s.disp.size.w + 7) (s.disp.size.w - 1) ∧
    (s.reg y).toNat % s.disp.size.h ≤ r ∧ r + 1 ≤ min ((s.reg y).toNat % s.disp.size.h + n) s.disp.size.h

/-! ## 44_keypad_timer.md -/

/-- EX9E and EXA1 (R190, R191): for a key 0..15, PC goes 2 further when it is, or is not, held, and nothing else changes; for a
V[x] above 15, KeyRange, which is the spec's decision D15 (log entry 13), with `at` = PC - 2 (D11; log entry 5, DEDUCED) and nothing
changed since the fetch (D12, log entry 4). -/
def Obligations.KeySkipsReadTheHeldFlag : Prop :=
  ∀ (x : Reg) (s : State),
    (∀ k : Fin 16, (s.reg x).toNat = k.val →
      exec (.skp x) s = .next { s with pc := if s.held.get k = true then s.pc + 2 else s.pc } ∧
      exec (.sknp x) s = .next { s with pc := if s.held.get k = true then s.pc else s.pc + 2 }) ∧
    (15 < (s.reg x).toNat →
      exec (.skp x) s = .fault (.keyRange (s.pc - 2) (s.reg x)) ∧ stateLeft s (exec (.skp x) s) = s ∧
      exec (.sknp x) s = .fault (.keyRange (s.pc - 2) (s.reg x)) ∧ stateLeft s (exec (.sknp x) s) = s)

/-- FX07, FX15 and FX18 (R192, R194, R195): the timers move to and from V[x], nothing else changes, and they run always. -/
def Obligations.TimerMovesCopyTheRegister : Prop :=
  ∀ (x : Reg) (s : State),
    (encodedAs (.ldVxDT x) 0xF007#16 0xF0FF#16 ∧ ∃ t, exec (.ldVxDT x) s = .next t ∧ t = { s with v := t.v } ∧
      t.reg x = s.dt ∧ ∀ r, r ≠ x → t.reg r = s.reg r) ∧
    (encodedAs (.ldDTVx x) 0xF015#16 0xF0FF#16 ∧ exec (.ldDTVx x) s = .next { s with dt := s.reg x }) ∧
    (encodedAs (.ldSTVx x) 0xF018#16 0xF0FF#16 ∧ exec (.ldSTVx x) s = .next { s with st := s.reg x })

/-- FX0A (R193): the least released key goes to V[x] and the release is not cleared (D16); with none released PC goes back by 2
and nothing else changes (D17): the spec's decisions, log entry 14. -/
def Obligations.KeyWaitTakesTheLeastRelease : Prop :=
  ∀ (x : Reg) (s : State),
    (∀ k : Fin 16, s.released.get k = true → (∀ j : Fin 16, j < k → s.released.get j = false) →
      ∃ t, exec (.ldVxK x) s = .next t ∧ t = { s with v := t.v } ∧ (t.reg x).toNat = k.val ∧
        ∀ r, r ≠ x → t.reg r = s.reg r) ∧
    ((∀ k : Fin 16, s.released.get k = false) → exec (.ldVxK x) s = .next { s with pc := s.pc - 2 })

/-- A waiting step changes nothing at all (R193, R246, R252 (c); D17, log entry 14). -/
def Obligations.WaitingStepChangesNothing : Prop :=
  ∀ s : State, waiting s = true → step s = .next s

/-- An idle loop is a fixed point: every later step answers the same state, so a run of any length does (R252 (a); D33, log
entry 22). -/
def Obligations.IdleLoopNeverChangesTheState : Prop :=
  ∀ (s : State) (k : Nat), idle s = true → Sys2Proof.core.run k s = .next s

/-! ## Frames over all instructions -/

/-- No instruction writes a register other than its destination and, for the seven of R23's table, VF. -/
def Obligations.OnlyNamedRegistersAreWritten : Prop :=
  ∀ (i : Instr) (s t : State) (r : Reg), exec i s = .next t → mayWrite i r = false → t.reg r = s.reg r

/-- Which instructions write which piece of state besides V and memory (R24 to R29, R30, derived there): HELD and RELEASED never,
each of the others only by the instructions named; QUIRK (R8, R20) and the display's size (R6) never. The last clause is about
`rndIn` and `rndCount`, the model's own fields for the random source (R224, D22; log entry 3, DESIGN CHOICE): only CXNN moves them. -/
def Obligations.OtherStateIsWrittenOnlyAsListed : Prop :=
  ∀ (i : Instr) (s t : State), exec i s = .next t →
    t.held = s.held ∧ t.released = s.released ∧ t.quirk = s.quirk ∧ t.disp.size = s.disp.size ∧
    (t.dt ≠ s.dt → ∃ x, i = .ldDTVx x) ∧
    (t.st ≠ s.st → ∃ x, i = .ldSTVx x) ∧
    (t.disp ≠ s.disp → i = .cls ∨ ∃ x y n, i = .drw x y n) ∧
    (t.stack ≠ s.stack → ∃ nnn, i = .call nnn) ∧
    (t.sp ≠ s.sp → i = .ret ∨ ∃ nnn, i = .call nnn) ∧
    (t.i ≠ s.i → (∃ nnn, i = .ldI nnn) ∨ (∃ x, i = .addI x ∨ i = .ldF x) ∨
      (s.quirk = false ∧ ∃ x, i = .storeRegs x ∨ i = .loadRegs x)) ∧
    (t.pc ≠ s.pc → i = .ret ∨ (∃ nnn, i = .jp nnn ∨ i = .call nnn ∨ i = .jpV0 nnn) ∨
      (∃ x nn, i = .seImm x nn ∨ i = .sneImm x nn) ∨ (∃ x y, i = .seReg x y ∨ i = .sneReg x y) ∨
      ∃ x, i = .skp x ∨ i = .sknp x ∨ i = .ldVxK x) ∧
    ((t.rndIn ≠ s.rndIn ∨ t.rndCount ≠ s.rndCount) → ∃ x nn, i = .rnd x nn)

/-- Memory after an instruction: the bytes it stores stand from I on, and every other address reads as before, all of memory
for an instruction that stores none (R30, R51, R54). -/
def Obligations.OnlyTheStoredBytesChange : Prop :=
  ∀ (i : Instr) (s t : State), s.mem.wf = true → exec i s = .next t →
    (∀ (k : Nat) (h : k < (stored i s).length), t.mem.get (s.i.toNat + k) = (stored i s)[k]) ∧
    (∀ a, (a < s.i.toNat ∨ s.i.toNat + (stored i s).length ≤ a) → t.mem.get a = s.mem.get a) ∧
    (stored i s = [] → t.mem = s.mem)

/-! ## Invariants -/

/-- Every step keeps the invariant: memory stays canonical, PC stays within R24's bound, and so does every stack entry. -/
def Obligations.StepKeepsTheInvariant : Prop :=
  ∀ s t : State, Invariant s → step s = .next t → Invariant t

/-- The reset state of the core, with a display of any size and either QUIRK, meets the invariant. -/
def Obligations.ResetMeetsTheInvariant : Prop :=
  Invariant State.reset ∧ ∀ size q, Invariant (construct size q)

/-- Every run of host operations, steps that report an error among them and under either policy on errors, keeps the invariant,
and no run changes the display's size (R6). What an erring operation leaves is the spec's decision D12 (R212) and that a run may go
on after it D13 (R214), log entry 4; the run of operations is the model's `hostRun` (log entry 15, DESIGN CHOICE), and which errors
its policy covers log entry 26 (DESIGN CHOICE). -/
def Obligations.HostRunsKeepTheInvariant : Prop :=
  ∀ (policy : HostOnError) (ops : List HostOp) (s : State),
    (Invariant s → Invariant (hostRun policy ops s).2) ∧ (hostRun policy ops s).2.disp.size = s.disp.size

/-! ## What cannot be seen -/

/-- ST is read by no instruction (R27): two states that differ in ST only step alike, and to states that differ in ST only. -/
def Obligations.SoundTimerIsInvisible : Prop :=
  ∀ (s : State) (b : Byte),
    (∀ t, step s = .next t → ∃ c, step { s with st := b } = .next { t with st := c }) ∧
    (∀ f, step s = .fault f → step { s with st := b } = .fault f)

/-- The random source is read by CXNN only (R224; D22, log entry 3): any other step is the same whatever it would supply, and the
host's Step(RND) (R80) is that same step for every byte RND, with the source left as it was. What Step leaves after an error is
D12 (log entry 4). -/
def Obligations.OnlyRandomReadsTheRandomSource : Prop :=
  ∀ (s : State) (bs : List Byte) (k : Nat) (rnd : Byte), (∀ x nn, decode s.wordAtPC ≠ some (.rnd x nn)) →
    (∀ t, step s = .next t → hostOp (.step rnd) s = (.ok, t) ∧ t.rndIn = s.rndIn ∧ t.rndCount = s.rndCount) ∧
    (∀ f, step s = .fault f → hostOp (.step rnd) s = (.stepError f, stepLeft s)) ∧
    (∀ t, step s = .next t → step { s with rndIn := bs, rndCount := k } = .next { t with rndIn := bs, rndCount := k }) ∧
    (∀ f, step s = .fault f → step { s with rndIn := bs, rndCount := k } = .fault f)

/-- HELD is read by EX9E and EXA1 only and RELEASED by FX0A only (R29). -/
def Obligations.OnlyKeyInstructionsReadTheKeypad : Prop :=
  ∀ (i : Instr) (s t : State) (held released : Vector Bool 16), exec i s = .next t →
    ((∀ x, i ≠ .skp x ∧ i ≠ .sknp x) → exec i { s with held := held } = .next { t with held := held }) ∧
    ((∀ x, i ≠ .ldVxK x) → exec i { s with released := released } = .next { t with released := released })

/-- QUIRK changes the shifts, BNNN, FX55 and FX65 only (R2, R8), and which words decode not at all (R85). -/
def Obligations.OnlyFiveInstructionsReadQuirk : Prop :=
  ∀ (i : Instr) (s t : State) (q : Bool), (∀ x y, i ≠ .shr x y ∧ i ≠ .shl x y) → (∀ nnn, i ≠ .jpV0 nnn) →
    (∀ x, i ≠ .storeRegs x ∧ i ≠ .loadRegs x) → exec i s = .next t →
    exec i { s with quirk := q } = .next { t with quirk := q }

/-- No instruction observes a stack entry at SP or above (R26; D30, log entry 19): states that agree below SP step alike, and to
states that agree below their SP. -/
def Obligations.StaleStackEntriesAreInvisible : Prop :=
  ∀ (s : State) (stack : Vector Word 16), (∀ k : Fin 16, k.val < s.sp.val → stack.get k = s.stack.get k) →
    (∀ t, step s = .next t → ∃ u : Vector Word 16, step { s with stack := stack } = .next { t with stack := u } ∧
      ∀ k : Fin 16, k.val < t.sp.val → u.get k = t.stack.get k) ∧
    (∀ f, step s = .fault f → step { s with stack := stack } = .fault f)

/-- Canonical memories that read the same at every address are equal, so equal memories are equal data (R50; log entry 16). -/
def Obligations.CanonicalMemoriesAreDeterminedByReads : Prop :=
  ∀ m m' : Memory, m.wf = true → m'.wf = true → (∀ a, m.get a = m'.get a) → m = m'

/-! ## The host interface -/

/-- Construct and Reset (R31, R240, R241; D4, D24, log entries 2 and 21): every element of the state tuple is zero and PC is
0x200; Construct takes the QUIRK and the display's size it is given (R6; D2, log entry 1), Reset leaves both and the random source as
they are. -/
def Obligations.ConstructAndResetZeroTheState : Prop :=
  ∀ (size : Config.DisplaySize) (q : Bool) (s t : State), (t = construct size q ∨ t = (hostOp .reset s).2) →
    (∀ a, t.mem.get a = 0) ∧ (∀ r, t.reg r = 0) ∧ t.pc = 0x200 ∧ t.i = 0 ∧ (∀ k : Fin 16, t.stack.get k = 0) ∧ t.sp = 0 ∧
    t.dt = 0 ∧ t.st = 0 ∧ (∀ c r, t.disp.pixel c r = false) ∧ (∀ k : Fin 16, t.held.get k = false) ∧
    (∀ k : Fin 16, t.released.get k = false) ∧ (construct size q).quirk = q ∧ (construct size q).disp.size = size ∧
    (hostOp .reset s).1 = .ok ∧
    (hostOp .reset s).2.quirk = s.quirk ∧ (hostOp .reset s).2.disp.size = s.disp.size ∧ (hostOp .reset s).2.rndIn = s.rndIn ∧
    (hostOp .reset s).2.rndCount = s.rndCount

/-- The first Step of a core with nothing loaded reports InvalidOpcode(0x0000) and leaves PC at 0x202 (R244, derived
there), for a display of any size; its `at` is 0x200 (D11; log entry 5, DEDUCED). -/
def Obligations.FirstStepWithNothingLoaded : Prop :=
  ∀ (size : Config.DisplaySize) (q : Bool) (rnd : Byte),
    hostOp (.step rnd) (construct size q) =
      (.stepError (.invalidOpcode 0x200 0x0000), { construct size q with pc := 0x202 })

/-- LoadProgram (R242; D23, log entry 15): a program that fits is read back byte for byte, and nothing else changes; one that
does not fit is MemRange and nothing changes. -/
def Obligations.LoadedProgramReadsBack : Prop :=
  ∀ (offset : Nat) (bytes : List Byte) (s : State), s.mem.wf = true →
    (offset < 4096 ∧ offset + bytes.length ≤ 4096 → ∃ t, hostOp (.loadProgram offset bytes) s = (.ok, t) ∧
      t = { s with mem := t.mem } ∧ hostOp (.readSlice offset bytes.length) t = (.bytes bytes, t) ∧
      ∀ a, (a < offset ∨ offset + bytes.length ≤ a) → t.mem.get a = s.mem.get a) ∧
    (¬ (offset < 4096 ∧ offset + bytes.length ≤ 4096) →
      hostOp (.loadProgram offset bytes) s = (.error (.memRange offset bytes.length), s))

/-- ReadByte and WriteByte (R66). -/
def Obligations.ByteOperationsReadAndWriteOneByte : Prop :=
  ∀ (a : Nat) (b : Byte) (s : State), s.mem.wf = true →
    (a < 4096 → hostOp (.readByte a) s = (.byte (s.mem.get a), s) ∧
      ∃ t, hostOp (.writeByte a b) s = (.ok, t) ∧ t = { s with mem := t.mem } ∧ t.mem.get a = b ∧
        ∀ a', a' ≠ a → t.mem.get a' = s.mem.get a') ∧
    (¬ a < 4096 → hostOp (.readByte a) s = (.error (.memRange a 1), s) ∧
      hostOp (.writeByte a b) s = (.error (.memRange a 1), s))

/-- ReplaceMemory and WriteSlice (R65, R67; D23, log entry 15): exactly 4096 bytes replace the whole memory; a slice is written
when its length is the one asked for and it fits, every other byte reading as before; anything else is MemRange and nothing
changes. -/
def Obligations.BlockWritesCheckTheirLength : Prop :=
  ∀ (a len : Nat) (data : List Byte) (s : State),
    (data.length = 4096 → ∃ t, hostOp (.replaceMemory data) s = (.ok, t) ∧ t = { s with mem := t.mem } ∧
      ∀ (k : Nat) (h : k < data.length), t.mem.get k = data[k]) ∧
    (data.length ≠ 4096 → hostOp (.replaceMemory data) s = (.error (.memRange 0 data.length), s)) ∧
    (s.mem.wf = true → data.length = len → a < 4096 ∧ a + len ≤ 4096 →
      ∃ t, hostOp (.writeSlice a len data) s = (.ok, t) ∧ t = { s with mem := t.mem } ∧
        (∀ (k : Nat) (h : k < data.length), t.mem.get (a + k) = data[k]) ∧
        ∀ a', (a' < a ∨ a + len ≤ a') → t.mem.get a' = s.mem.get a') ∧
    (data.length ≠ len ∨ ¬ (a < 4096 ∧ a + len ≤ 4096) →
      hostOp (.writeSlice a len data) s = (.error (.memRange a len), s))

/-- TickTimers (R221): both timers go down by one and stop at 0, and nothing else changes. -/
def Obligations.TickCountsBothTimersDown : Prop :=
  ∀ s : State, ∃ t, hostOp .tickTimers s = (.ok, t) ∧ t = { s with dt := t.dt, st := t.st } ∧
    t.dt.toNat = s.dt.toNat - 1 ∧ t.st.toNat = s.st.toNat - 1

/-- SetHeld, SetReleased and SetQuirk (R8, R222; D4, D28, D32, log entry 15): each writes its one flag and nothing else. -/
def Obligations.KeyAndQuirkSettersWriteOneFlag : Prop :=
  ∀ (k : Fin 16) (b : Bool) (s : State),
    (∃ t, hostOp (.setHeld k b) s = (.ok, t) ∧ t = { s with held := t.held } ∧
      ∀ j, t.held.get j = if j = k then b else s.held.get j) ∧
    (∃ t, hostOp (.setReleased k b) s = (.ok, t) ∧ t = { s with released := t.released } ∧
      ∀ j, t.released.get j = if j = k then b else s.released.get j) ∧
    hostOp (.setQuirk b) s = (.ok, { s with quirk := b })

/-- ReadDisplay (R223; D19, log entry 17): the pixels in row-major order, and nothing changes. -/
def Obligations.DisplayViewIsRowMajor : Prop :=
  ∀ s : State, ∃ ps, hostOp .readDisplay s = (.pixels ps, s) ∧ ps.length = s.disp.size.w * s.disp.size.h ∧
    ∀ c r, onDisplay s.disp c r → ps[r * s.disp.size.w + c]? = some (s.disp.pixel c r)

/-- ReadSlice (R53, R67), on any memory: the bytes from the address on, in increasing address order, and
nothing changes; a block out of range is MemRange, the empty block at 4096 among them, which is the spec's decision D18 (R52, log
entry 11). -/
def Obligations.ReadSliceGivesTheBytesOfMemory : Prop :=
  ∀ (a len : Nat) (s : State),
    (a < 4096 ∧ a + len ≤ 4096 → ∃ bs, hostOp (.readSlice a len) s = (.bytes bs, s) ∧ bs.length = len ∧
      ∀ (k : Nat) (h : k < bs.length), bs[k] = s.mem.get (a + k)) ∧
    (¬ (a < 4096 ∧ a + len ≤ 4096) → hostOp (.readSlice a len) s = (.error (.memRange a len), s))
end

