-- ==== Sys2Proof/Laws/Decode.lean ====
section
/-!
SUPPORT. Laws/Decode.lean: the fields of a word as numbers, and the fields of a word built by each format.
-/

namespace Sys2Proof

theorem catOf_toNat (w : Word) : (catOf w).toNat = w.toNat / 4096 % 16 := by
  simp [catOf, BitVec.extractLsb'_toNat, Nat.shiftRight_eq_div_pow]

theorem xOf_val (w : Word) : (xOf w).val = w.toNat / 256 % 16 := by
  simp [xOf, Nat.shiftRight_eq_div_pow]

theorem yOf_val (w : Word) : (yOf w).val = w.toNat / 16 % 16 := by
  simp [yOf, Nat.shiftRight_eq_div_pow]

theorem nOf_toNat (w : Word) : (nOf w).toNat = w.toNat % 16 := by
  simp [nOf, BitVec.extractLsb'_toNat]

theorem nnOf_toNat (w : Word) : (nnOf w).toNat = w.toNat % 256 := by
  simp [nnOf, BitVec.extractLsb'_toNat]

theorem nnnOf_toNat (w : Word) : (nnnOf w).toNat = w.toNat % 4096 := by
  simp [nnnOf, BitVec.extractLsb'_toNat]

theorem encNNN_toNat (cat : BitVec 4) (nnn : Addr12) : (encNNN cat nnn).toNat = cat.toNat * 4096 + nnn.toNat := by
  simp only [encNNN, BitVec.toNat_append, Nat.shiftLeft_eq]
  rw [← Nat.shiftLeft_eq, ← Nat.shiftLeft_add_eq_or_of_lt nnn.isLt, Nat.shiftLeft_eq]

theorem encXNN_toNat (cat : BitVec 4) (x : Reg) (nn : Byte) :
    (encXNN cat x nn).toNat = cat.toNat * 4096 + x.val * 256 + nn.toNat := by
  have hx : (BitVec.ofFin x : BitVec 4).toNat = x.val := rfl
  simp only [encXNN, BitVec.toNat_append]
  rw [← Nat.shiftLeft_add_eq_or_of_lt nn.isLt, ← Nat.shiftLeft_add_eq_or_of_lt (BitVec.isLt _), hx]
  simp only [Nat.shiftLeft_eq]
  omega

theorem encXFN_toNat (cat : BitVec 4) (x : Reg) (f : Byte) :
    (encXFN cat x f).toNat = cat.toNat * 4096 + x.val * 256 + f.toNat := encXNN_toNat cat x f

theorem encXYN_toNat (cat : BitVec 4) (x y : Reg) (n : BitVec 4) :
    (encXYN cat x y n).toNat = cat.toNat * 4096 + x.val * 256 + y.val * 16 + n.toNat := by
  have hx : (BitVec.ofFin x : BitVec 4).toNat = x.val := rfl
  have hy : (BitVec.ofFin y : BitVec 4).toNat = y.val := rfl
  simp only [encXYN, BitVec.toNat_append]
  rw [← Nat.shiftLeft_add_eq_or_of_lt n.isLt, ← Nat.shiftLeft_add_eq_or_of_lt (BitVec.isLt _), hy,
    ← Nat.shiftLeft_add_eq_or_of_lt (BitVec.isLt _), hx]
  simp only [Nat.shiftLeft_eq]
  omega

/-- A word is the bytes it is stored as, read big-endian (R55). -/
@[simp] theorem wordOfBytes_hi_lo (w : Word) : wordOfBytes (hiByte w) (loByte w) = w := by
  apply BitVec.eq_of_toNat_eq
  simp only [wordOfBytes, hiByte, loByte, BitVec.toNat_append, BitVec.extractLsb'_toNat, Nat.shiftRight_eq_div_pow]
  rw [← Nat.shiftLeft_add_eq_or_of_lt (Nat.mod_lt _ (by decide)), Nat.shiftLeft_eq]
  have := w.isLt
  omega

theorem wordOfBytes_toNat (hi lo : Byte) : (wordOfBytes hi lo).toNat = hi.toNat * 256 + lo.toNat := by
  simp only [wordOfBytes, BitVec.toNat_append]
  rw [← Nat.shiftLeft_add_eq_or_of_lt lo.isLt, Nat.shiftLeft_eq]

end Sys2Proof
end

