-- ==== Sys2Proof/Laws/Memory.lean ====
section
/-!
SUPPORT. Laws/Memory.lean: the laws of memory as data: a read after a write, the canonical form is kept by every memory
operation, and a canonical memory is determined by what it reads as.
-/

namespace Sys2Proof.Machine.Memory

@[simp] theorem get_nil (a : Nat) : Memory.get [] a = 0#8 := rfl

/-- Below where a canonical memory begins, everything reads as 0. -/
theorem get_below {m : Memory} {lo a : Nat} (h : m.wfFrom lo = true) (ha : a < lo) : m.get a = 0#8 := by
  induction m generalizing lo with
  | nil => rfl
  | cons c m ih =>
    simp only [Memory.wfFrom, Bool.and_eq_true, decide_eq_true_eq] at h
    simp only [Memory.get]
    rw [if_neg (by omega)]
    exact ih h.2 (by omega)

/-- A read of the address just written gives the byte written. -/
theorem get_set_self {lo : Nat} (m : Memory) (a : Nat) (x : Byte) (h : m.wfFrom lo = true) : (m.set a x).get a = x := by
  induction m generalizing lo with
  | nil => by_cases hx : x = 0#8 <;> simp [Memory.set, Memory.get, hx]
  | cons c m ih =>
    obtain ⟨b, u⟩ := c
    simp only [Memory.wfFrom, Bool.and_eq_true, decide_eq_true_eq] at h
    obtain ⟨⟨⟨h1, h2⟩, h3⟩, h4⟩ := h
    simp only [Memory.set]
    split
    · split
      · subst_vars
        simp only [Memory.get]
        rw [if_neg (by omega)]
        exact get_below h4 (by omega)
      · simp [Memory.get]
    · split
      · split
        · subst_vars
          exact get_below h4 (by omega)
        · simp [Memory.get]
      · simp only [Memory.get]
        rw [if_neg (by omega)]
        exact ih h4

/-- A write leaves every other address alone. -/
theorem get_set_ne (m : Memory) {a b : Nat} (x : Byte) (h : b ≠ a) : (m.set a x).get b = m.get b := by
  induction m with
  | nil =>
    by_cases hx : x = 0#8
    · simp [Memory.set, hx]
    · simp [Memory.set, Memory.get, hx, h]
  | cons c m ih =>
    obtain ⟨d, u⟩ := c
    simp only [Memory.set]
    split
    · split <;> simp [Memory.get, h]
    · split
      · subst_vars
        split <;> simp [Memory.get, h]
      · simp only [Memory.get, ih]

/-- The canonical form from an address on is one from every lower address on. -/
theorem wfFrom_mono {m : Memory} {lo lo' : Nat} (h : m.wfFrom lo = true) (hl : lo' ≤ lo) : m.wfFrom lo' = true := by
  cases m with
  | nil => rfl
  | cons c m =>
    simp only [Memory.wfFrom, Bool.and_eq_true, decide_eq_true_eq] at h ⊢
    exact ⟨⟨⟨by omega, h.1.1.2⟩, h.1.2⟩, h.2⟩

/-- Past the address space everything reads as 0. -/
theorem get_above {m : Memory} {lo a : Nat} (h : m.wfFrom lo = true) (ha : Config.memSize ≤ a) : m.get a = 0#8 := by
  induction m generalizing lo with
  | nil => rfl
  | cons c m ih =>
    simp only [Memory.wfFrom, Bool.and_eq_true, decide_eq_true_eq] at h
    simp only [Memory.get]
    rw [if_neg (by omega)]
    exact ih h.2

/-- Writing one byte of the address space keeps the canonical form. -/
theorem wfFrom_set {m : Memory} {lo a : Nat} (x : Byte) (h : m.wfFrom lo = true) (ha : lo ≤ a) (hs : a < Config.memSize) :
    (m.set a x).wfFrom lo = true := by
  induction m generalizing lo with
  | nil => by_cases hx : x = 0#8 <;> simp [Memory.set, Memory.wfFrom, hx, ha, hs]
  | cons c m ih =>
    obtain ⟨b, u⟩ := c
    have h' := h
    simp only [Memory.wfFrom, Bool.and_eq_true, decide_eq_true_eq] at h'
    obtain ⟨⟨⟨h1, h2⟩, h3⟩, h4⟩ := h'
    simp only [Memory.set]
    split
    · split
      · exact h
      · simp only [Memory.wfFrom, Bool.and_eq_true, decide_eq_true_eq]
        exact ⟨⟨⟨ha, hs⟩, by assumption⟩, ⟨⟨by omega, h2⟩, h3⟩, h4⟩
    · split
      · split
        · exact wfFrom_mono h4 (by omega)
        · subst_vars
          simp only [Memory.wfFrom, Bool.and_eq_true, decide_eq_true_eq]
          exact ⟨⟨⟨ha, hs⟩, by assumption⟩, h4⟩
      · simp only [Memory.wfFrom, Bool.and_eq_true, decide_eq_true_eq]
        exact ⟨⟨⟨h1, h2⟩, h3⟩, ih h4 (by omega)⟩

/-- Writing one byte keeps `wf`. -/
theorem wf_set {m : Memory} {a : Nat} (x : Byte) (h : m.wf = true) (hs : a < Config.memSize) : (m.set a x).wf = true :=
  wfFrom_set x h (Nat.zero_le a) hs

/-- Writing a block inside the address space keeps `wf`. -/
theorem wf_setBytes {m : Memory} {a : Nat} (bs : List Byte) (h : m.wf = true) (hs : a + bs.length ≤ Config.memSize) :
    (m.setBytes a bs).wf = true := by
  induction bs generalizing m a with
  | nil => exact h
  | cons x xs ih =>
    simp only [List.length_cons] at hs
    exact ih (wf_set x h (by omega)) (by omega)

/-- A block write leaves every address outside the block alone. -/
theorem get_setBytes_outside (m : Memory) (a : Nat) (bs : List Byte) {b : Nat} (h : b < a ∨ a + bs.length ≤ b) :
    (m.setBytes a bs).get b = m.get b := by
  induction bs generalizing m a with
  | nil => rfl
  | cons x xs ih =>
    simp only [List.length_cons] at h
    rw [Memory.setBytes, ih _ _ (by omega), get_set_ne _ _ (by omega)]

/-- A block write stores the k-th byte at the k-th address of the block (R54). -/
theorem get_setBytes_inside {m : Memory} {a : Nat} {bs : List Byte} (hm : m.wf = true)
    (hs : a + bs.length ≤ Config.memSize) {k : Nat} (hk : k < bs.length) : (m.setBytes a bs).get (a + k) = bs[k] := by
  induction bs generalizing m a k with
  | nil => simp at hk
  | cons x xs ih =>
    simp only [List.length_cons] at hs hk
    cases k with
    | zero =>
      rw [Memory.setBytes, get_setBytes_outside _ _ _ (by omega)]
      exact get_set_self m a x hm
    | succ k =>
      have := ih (m := m.set a x) (a := a + 1) (wf_set x hm (by omega)) (by omega) (k := k) (by omega)
      rw [Memory.setBytes, show a + (k + 1) = a + 1 + k by omega, this]
      rfl

@[simp] theorem getBytes_length (m : Memory) (a n : Nat) : (m.getBytes a n).length = n := by
  induction n generalizing a with
  | zero => rfl
  | succ n ih => simp [Memory.getBytes, ih]

/-- The k-th byte of a block read is the byte at the k-th address (R53). -/
theorem getBytes_getElem (m : Memory) (a n k : Nat) (h : k < (m.getBytes a n).length) :
    (m.getBytes a n)[k] = m.get (a + k) := by
  induction n generalizing a k with
  | zero => simp [Memory.getBytes] at h
  | succ n ih =>
    cases k with
    | zero => rfl
    | succ k =>
      simp only [Memory.getBytes, List.getElem_cons_succ]
      rw [ih]
      congr 1
      omega

/-- Two memories that agree on a block read the same bytes there. -/
theorem getBytes_congr {m m' : Memory} {a n : Nat} (h : ∀ k, k < n → m.get (a + k) = m'.get (a + k)) :
    m.getBytes a n = m'.getBytes a n := by
  apply List.ext_getElem
  · simp
  · intro k h1 h2
    rw [getBytes_getElem, getBytes_getElem]
    exact h k (by simpa using h1)

/-- A block read back just after it was written. -/
theorem getBytes_setBytes {m : Memory} {a : Nat} {bs : List Byte} (hm : m.wf = true)
    (hs : a + bs.length ≤ Config.memSize) : (m.setBytes a bs).getBytes a bs.length = bs := by
  apply List.ext_getElem
  · simp
  · intro k h1 h2
    rw [getBytes_getElem, get_setBytes_inside hm hs h2]

end Sys2Proof.Machine.Memory
end

