-- ==== Sys2Proof/Laws/State.lean ====
section
/-!
SUPPORT. Laws/State.lean: one lemma for each field under each update of State, true by the update's definition, so that no
proof unfolds a record update.
-/

namespace Sys2Proof.Machine.State

variable (s : State)

/-! ### setReg -/

@[simp] theorem setReg_mem (r : Reg) (x : Byte) : (s.setReg r x).mem = s.mem := rfl
@[simp] theorem setReg_v (r : Reg) (x : Byte) : (s.setReg r x).v = s.v.set r x := rfl
@[simp] theorem setReg_pc (r : Reg) (x : Byte) : (s.setReg r x).pc = s.pc := rfl
@[simp] theorem setReg_i (r : Reg) (x : Byte) : (s.setReg r x).i = s.i := rfl
@[simp] theorem setReg_stack (r : Reg) (x : Byte) : (s.setReg r x).stack = s.stack := rfl
@[simp] theorem setReg_sp (r : Reg) (x : Byte) : (s.setReg r x).sp = s.sp := rfl
@[simp] theorem setReg_dt (r : Reg) (x : Byte) : (s.setReg r x).dt = s.dt := rfl
@[simp] theorem setReg_st (r : Reg) (x : Byte) : (s.setReg r x).st = s.st := rfl
@[simp] theorem setReg_disp (r : Reg) (x : Byte) : (s.setReg r x).disp = s.disp := rfl
@[simp] theorem setReg_held (r : Reg) (x : Byte) : (s.setReg r x).held = s.held := rfl
@[simp] theorem setReg_released (r : Reg) (x : Byte) : (s.setReg r x).released = s.released := rfl
@[simp] theorem setReg_quirk (r : Reg) (x : Byte) : (s.setReg r x).quirk = s.quirk := rfl
@[simp] theorem setReg_rndIn (r : Reg) (x : Byte) : (s.setReg r x).rndIn = s.rndIn := rfl
@[simp] theorem setReg_rndCount (r : Reg) (x : Byte) : (s.setReg r x).rndCount = s.rndCount := rfl

/-! ### setPC -/

@[simp] theorem setPC_mem (a : Word) : (s.setPC a).mem = s.mem := rfl
@[simp] theorem setPC_v (a : Word) : (s.setPC a).v = s.v := rfl
@[simp] theorem setPC_pc (a : Word) : (s.setPC a).pc = a := rfl
@[simp] theorem setPC_i (a : Word) : (s.setPC a).i = s.i := rfl
@[simp] theorem setPC_stack (a : Word) : (s.setPC a).stack = s.stack := rfl
@[simp] theorem setPC_sp (a : Word) : (s.setPC a).sp = s.sp := rfl
@[simp] theorem setPC_dt (a : Word) : (s.setPC a).dt = s.dt := rfl
@[simp] theorem setPC_st (a : Word) : (s.setPC a).st = s.st := rfl
@[simp] theorem setPC_disp (a : Word) : (s.setPC a).disp = s.disp := rfl
@[simp] theorem setPC_held (a : Word) : (s.setPC a).held = s.held := rfl
@[simp] theorem setPC_released (a : Word) : (s.setPC a).released = s.released := rfl
@[simp] theorem setPC_quirk (a : Word) : (s.setPC a).quirk = s.quirk := rfl
@[simp] theorem setPC_rndIn (a : Word) : (s.setPC a).rndIn = s.rndIn := rfl
@[simp] theorem setPC_rndCount (a : Word) : (s.setPC a).rndCount = s.rndCount := rfl

/-! ### setI -/

@[simp] theorem setI_mem (a : Word) : (s.setI a).mem = s.mem := rfl
@[simp] theorem setI_v (a : Word) : (s.setI a).v = s.v := rfl
@[simp] theorem setI_pc (a : Word) : (s.setI a).pc = s.pc := rfl
@[simp] theorem setI_i (a : Word) : (s.setI a).i = a := rfl
@[simp] theorem setI_stack (a : Word) : (s.setI a).stack = s.stack := rfl
@[simp] theorem setI_sp (a : Word) : (s.setI a).sp = s.sp := rfl
@[simp] theorem setI_dt (a : Word) : (s.setI a).dt = s.dt := rfl
@[simp] theorem setI_st (a : Word) : (s.setI a).st = s.st := rfl
@[simp] theorem setI_disp (a : Word) : (s.setI a).disp = s.disp := rfl
@[simp] theorem setI_held (a : Word) : (s.setI a).held = s.held := rfl
@[simp] theorem setI_released (a : Word) : (s.setI a).released = s.released := rfl
@[simp] theorem setI_quirk (a : Word) : (s.setI a).quirk = s.quirk := rfl
@[simp] theorem setI_rndIn (a : Word) : (s.setI a).rndIn = s.rndIn := rfl
@[simp] theorem setI_rndCount (a : Word) : (s.setI a).rndCount = s.rndCount := rfl

/-! ### setDT -/

@[simp] theorem setDT_mem (x : Byte) : (s.setDT x).mem = s.mem := rfl
@[simp] theorem setDT_v (x : Byte) : (s.setDT x).v = s.v := rfl
@[simp] theorem setDT_pc (x : Byte) : (s.setDT x).pc = s.pc := rfl
@[simp] theorem setDT_i (x : Byte) : (s.setDT x).i = s.i := rfl
@[simp] theorem setDT_stack (x : Byte) : (s.setDT x).stack = s.stack := rfl
@[simp] theorem setDT_sp (x : Byte) : (s.setDT x).sp = s.sp := rfl
@[simp] theorem setDT_dt (x : Byte) : (s.setDT x).dt = x := rfl
@[simp] theorem setDT_st (x : Byte) : (s.setDT x).st = s.st := rfl
@[simp] theorem setDT_disp (x : Byte) : (s.setDT x).disp = s.disp := rfl
@[simp] theorem setDT_held (x : Byte) : (s.setDT x).held = s.held := rfl
@[simp] theorem setDT_released (x : Byte) : (s.setDT x).released = s.released := rfl
@[simp] theorem setDT_quirk (x : Byte) : (s.setDT x).quirk = s.quirk := rfl
@[simp] theorem setDT_rndIn (x : Byte) : (s.setDT x).rndIn = s.rndIn := rfl
@[simp] theorem setDT_rndCount (x : Byte) : (s.setDT x).rndCount = s.rndCount := rfl

/-! ### setST -/

@[simp] theorem setST_mem (x : Byte) : (s.setST x).mem = s.mem := rfl
@[simp] theorem setST_v (x : Byte) : (s.setST x).v = s.v := rfl
@[simp] theorem setST_pc (x : Byte) : (s.setST x).pc = s.pc := rfl
@[simp] theorem setST_i (x : Byte) : (s.setST x).i = s.i := rfl
@[simp] theorem setST_stack (x : Byte) : (s.setST x).stack = s.stack := rfl
@[simp] theorem setST_sp (x : Byte) : (s.setST x).sp = s.sp := rfl
@[simp] theorem setST_dt (x : Byte) : (s.setST x).dt = s.dt := rfl
@[simp] theorem setST_st (x : Byte) : (s.setST x).st = x := rfl
@[simp] theorem setST_disp (x : Byte) : (s.setST x).disp = s.disp := rfl
@[simp] theorem setST_held (x : Byte) : (s.setST x).held = s.held := rfl
@[simp] theorem setST_released (x : Byte) : (s.setST x).released = s.released := rfl
@[simp] theorem setST_quirk (x : Byte) : (s.setST x).quirk = s.quirk := rfl
@[simp] theorem setST_rndIn (x : Byte) : (s.setST x).rndIn = s.rndIn := rfl
@[simp] theorem setST_rndCount (x : Byte) : (s.setST x).rndCount = s.rndCount := rfl

/-! ### setDisp -/

@[simp] theorem setDisp_mem (d : Raster s.disp.size.w s.disp.size.h) : (s.setDisp d).mem = s.mem := rfl
@[simp] theorem setDisp_v (d : Raster s.disp.size.w s.disp.size.h) : (s.setDisp d).v = s.v := rfl
@[simp] theorem setDisp_pc (d : Raster s.disp.size.w s.disp.size.h) : (s.setDisp d).pc = s.pc := rfl
@[simp] theorem setDisp_i (d : Raster s.disp.size.w s.disp.size.h) : (s.setDisp d).i = s.i := rfl
@[simp] theorem setDisp_stack (d : Raster s.disp.size.w s.disp.size.h) : (s.setDisp d).stack = s.stack := rfl
@[simp] theorem setDisp_sp (d : Raster s.disp.size.w s.disp.size.h) : (s.setDisp d).sp = s.sp := rfl
@[simp] theorem setDisp_dt (d : Raster s.disp.size.w s.disp.size.h) : (s.setDisp d).dt = s.dt := rfl
@[simp] theorem setDisp_st (d : Raster s.disp.size.w s.disp.size.h) : (s.setDisp d).st = s.st := rfl
@[simp] theorem setDisp_disp (d : Raster s.disp.size.w s.disp.size.h) : (s.setDisp d).disp = ⟨s.disp.size, d⟩ := rfl
@[simp] theorem setDisp_held (d : Raster s.disp.size.w s.disp.size.h) : (s.setDisp d).held = s.held := rfl
@[simp] theorem setDisp_released (d : Raster s.disp.size.w s.disp.size.h) : (s.setDisp d).released = s.released := rfl
@[simp] theorem setDisp_quirk (d : Raster s.disp.size.w s.disp.size.h) : (s.setDisp d).quirk = s.quirk := rfl
@[simp] theorem setDisp_rndIn (d : Raster s.disp.size.w s.disp.size.h) : (s.setDisp d).rndIn = s.rndIn := rfl
@[simp] theorem setDisp_rndCount (d : Raster s.disp.size.w s.disp.size.h) : (s.setDisp d).rndCount = s.rndCount := rfl

/-! ### setRegsFrom0 -/

@[simp] theorem setRegsFrom0_mem (bs : List Byte) : (s.setRegsFrom0 bs).mem = s.mem := rfl
@[simp] theorem setRegsFrom0_v (bs : List Byte) : (s.setRegsFrom0 bs).v = loadInto s.v 0 bs := rfl
@[simp] theorem setRegsFrom0_pc (bs : List Byte) : (s.setRegsFrom0 bs).pc = s.pc := rfl
@[simp] theorem setRegsFrom0_i (bs : List Byte) : (s.setRegsFrom0 bs).i = s.i := rfl
@[simp] theorem setRegsFrom0_stack (bs : List Byte) : (s.setRegsFrom0 bs).stack = s.stack := rfl
@[simp] theorem setRegsFrom0_sp (bs : List Byte) : (s.setRegsFrom0 bs).sp = s.sp := rfl
@[simp] theorem setRegsFrom0_dt (bs : List Byte) : (s.setRegsFrom0 bs).dt = s.dt := rfl
@[simp] theorem setRegsFrom0_st (bs : List Byte) : (s.setRegsFrom0 bs).st = s.st := rfl
@[simp] theorem setRegsFrom0_disp (bs : List Byte) : (s.setRegsFrom0 bs).disp = s.disp := rfl
@[simp] theorem setRegsFrom0_held (bs : List Byte) : (s.setRegsFrom0 bs).held = s.held := rfl
@[simp] theorem setRegsFrom0_released (bs : List Byte) : (s.setRegsFrom0 bs).released = s.released := rfl
@[simp] theorem setRegsFrom0_quirk (bs : List Byte) : (s.setRegsFrom0 bs).quirk = s.quirk := rfl
@[simp] theorem setRegsFrom0_rndIn (bs : List Byte) : (s.setRegsFrom0 bs).rndIn = s.rndIn := rfl
@[simp] theorem setRegsFrom0_rndCount (bs : List Byte) : (s.setRegsFrom0 bs).rndCount = s.rndCount := rfl

/-! ### advance -/

@[simp] theorem advance_mem : (s.advance).mem = s.mem := rfl
@[simp] theorem advance_v : (s.advance).v = s.v := rfl
@[simp] theorem advance_pc : (s.advance).pc = s.pc + 2#16 := rfl
@[simp] theorem advance_i : (s.advance).i = s.i := rfl
@[simp] theorem advance_stack : (s.advance).stack = s.stack := rfl
@[simp] theorem advance_sp : (s.advance).sp = s.sp := rfl
@[simp] theorem advance_dt : (s.advance).dt = s.dt := rfl
@[simp] theorem advance_st : (s.advance).st = s.st := rfl
@[simp] theorem advance_disp : (s.advance).disp = s.disp := rfl
@[simp] theorem advance_held : (s.advance).held = s.held := rfl
@[simp] theorem advance_released : (s.advance).released = s.released := rfl
@[simp] theorem advance_quirk : (s.advance).quirk = s.quirk := rfl
@[simp] theorem advance_rndIn : (s.advance).rndIn = s.rndIn := rfl
@[simp] theorem advance_rndCount : (s.advance).rndCount = s.rndCount := rfl

/-! ### rewind -/

@[simp] theorem rewind_mem : (s.rewind).mem = s.mem := rfl
@[simp] theorem rewind_v : (s.rewind).v = s.v := rfl
@[simp] theorem rewind_pc : (s.rewind).pc = s.pc - 2#16 := rfl
@[simp] theorem rewind_i : (s.rewind).i = s.i := rfl
@[simp] theorem rewind_stack : (s.rewind).stack = s.stack := rfl
@[simp] theorem rewind_sp : (s.rewind).sp = s.sp := rfl
@[simp] theorem rewind_dt : (s.rewind).dt = s.dt := rfl
@[simp] theorem rewind_st : (s.rewind).st = s.st := rfl
@[simp] theorem rewind_disp : (s.rewind).disp = s.disp := rfl
@[simp] theorem rewind_held : (s.rewind).held = s.held := rfl
@[simp] theorem rewind_released : (s.rewind).released = s.released := rfl
@[simp] theorem rewind_quirk : (s.rewind).quirk = s.quirk := rfl
@[simp] theorem rewind_rndIn : (s.rewind).rndIn = s.rndIn := rfl
@[simp] theorem rewind_rndCount : (s.rewind).rndCount = s.rndCount := rfl

/-! ### skipIf -/

@[simp] theorem skipIf_mem (c : Bool) : (s.skipIf c).mem = s.mem := by cases c <;> rfl
@[simp] theorem skipIf_v (c : Bool) : (s.skipIf c).v = s.v := by cases c <;> rfl
@[simp] theorem skipIf_pc (c : Bool) : (s.skipIf c).pc = if c then s.pc + 2#16 else s.pc := by cases c <;> rfl
@[simp] theorem skipIf_i (c : Bool) : (s.skipIf c).i = s.i := by cases c <;> rfl
@[simp] theorem skipIf_stack (c : Bool) : (s.skipIf c).stack = s.stack := by cases c <;> rfl
@[simp] theorem skipIf_sp (c : Bool) : (s.skipIf c).sp = s.sp := by cases c <;> rfl
@[simp] theorem skipIf_dt (c : Bool) : (s.skipIf c).dt = s.dt := by cases c <;> rfl
@[simp] theorem skipIf_st (c : Bool) : (s.skipIf c).st = s.st := by cases c <;> rfl
@[simp] theorem skipIf_disp (c : Bool) : (s.skipIf c).disp = s.disp := by cases c <;> rfl
@[simp] theorem skipIf_held (c : Bool) : (s.skipIf c).held = s.held := by cases c <;> rfl
@[simp] theorem skipIf_released (c : Bool) : (s.skipIf c).released = s.released := by cases c <;> rfl
@[simp] theorem skipIf_quirk (c : Bool) : (s.skipIf c).quirk = s.quirk := by cases c <;> rfl
@[simp] theorem skipIf_rndIn (c : Bool) : (s.skipIf c).rndIn = s.rndIn := by cases c <;> rfl
@[simp] theorem skipIf_rndCount (c : Bool) : (s.skipIf c).rndCount = s.rndCount := by cases c <;> rfl

/-! ### setFlag -/

@[simp] theorem setFlag_mem (b : Bool) : (s.setFlag b).mem = s.mem := rfl
@[simp] theorem setFlag_v (b : Bool) : (s.setFlag b).v = s.v.set VF (flag b) := rfl
@[simp] theorem setFlag_pc (b : Bool) : (s.setFlag b).pc = s.pc := rfl
@[simp] theorem setFlag_i (b : Bool) : (s.setFlag b).i = s.i := rfl
@[simp] theorem setFlag_stack (b : Bool) : (s.setFlag b).stack = s.stack := rfl
@[simp] theorem setFlag_sp (b : Bool) : (s.setFlag b).sp = s.sp := rfl
@[simp] theorem setFlag_dt (b : Bool) : (s.setFlag b).dt = s.dt := rfl
@[simp] theorem setFlag_st (b : Bool) : (s.setFlag b).st = s.st := rfl
@[simp] theorem setFlag_disp (b : Bool) : (s.setFlag b).disp = s.disp := rfl
@[simp] theorem setFlag_held (b : Bool) : (s.setFlag b).held = s.held := rfl
@[simp] theorem setFlag_released (b : Bool) : (s.setFlag b).released = s.released := rfl
@[simp] theorem setFlag_quirk (b : Bool) : (s.setFlag b).quirk = s.quirk := rfl
@[simp] theorem setFlag_rndIn (b : Bool) : (s.setFlag b).rndIn = s.rndIn := rfl
@[simp] theorem setFlag_rndCount (b : Bool) : (s.setFlag b).rndCount = s.rndCount := rfl

/-! ### advanceI -/

@[simp] theorem advanceI_mem (x : Reg) : (s.advanceI x).mem = s.mem := by unfold State.advanceI; split <;> rfl
@[simp] theorem advanceI_v (x : Reg) : (s.advanceI x).v = s.v := by unfold State.advanceI; split <;> rfl
@[simp] theorem advanceI_pc (x : Reg) : (s.advanceI x).pc = s.pc := by unfold State.advanceI; split <;> rfl
@[simp] theorem advanceI_i (x : Reg) : (s.advanceI x).i = if s.quirk then s.i else BitVec.ofNat 16 (s.i.toNat + countOf x) := by unfold State.advanceI; split <;> rfl
@[simp] theorem advanceI_stack (x : Reg) : (s.advanceI x).stack = s.stack := by unfold State.advanceI; split <;> rfl
@[simp] theorem advanceI_sp (x : Reg) : (s.advanceI x).sp = s.sp := by unfold State.advanceI; split <;> rfl
@[simp] theorem advanceI_dt (x : Reg) : (s.advanceI x).dt = s.dt := by unfold State.advanceI; split <;> rfl
@[simp] theorem advanceI_st (x : Reg) : (s.advanceI x).st = s.st := by unfold State.advanceI; split <;> rfl
@[simp] theorem advanceI_disp (x : Reg) : (s.advanceI x).disp = s.disp := by unfold State.advanceI; split <;> rfl
@[simp] theorem advanceI_held (x : Reg) : (s.advanceI x).held = s.held := by unfold State.advanceI; split <;> rfl
@[simp] theorem advanceI_released (x : Reg) : (s.advanceI x).released = s.released := by unfold State.advanceI; split <;> rfl
@[simp] theorem advanceI_quirk (x : Reg) : (s.advanceI x).quirk = s.quirk := by unfold State.advanceI; split <;> rfl
@[simp] theorem advanceI_rndIn (x : Reg) : (s.advanceI x).rndIn = s.rndIn := by unfold State.advanceI; split <;> rfl
@[simp] theorem advanceI_rndCount (x : Reg) : (s.advanceI x).rndCount = s.rndCount := by unfold State.advanceI; split <;> rfl

/-! ### rndDrawn -/

@[simp] theorem rndDrawn_mem : (s.rndDrawn).mem = s.mem := by unfold State.rndDrawn; split <;> simp_all
@[simp] theorem rndDrawn_v : (s.rndDrawn).v = s.v := by unfold State.rndDrawn; split <;> simp_all
@[simp] theorem rndDrawn_pc : (s.rndDrawn).pc = s.pc := by unfold State.rndDrawn; split <;> simp_all
@[simp] theorem rndDrawn_i : (s.rndDrawn).i = s.i := by unfold State.rndDrawn; split <;> simp_all
@[simp] theorem rndDrawn_stack : (s.rndDrawn).stack = s.stack := by unfold State.rndDrawn; split <;> simp_all
@[simp] theorem rndDrawn_sp : (s.rndDrawn).sp = s.sp := by unfold State.rndDrawn; split <;> simp_all
@[simp] theorem rndDrawn_dt : (s.rndDrawn).dt = s.dt := by unfold State.rndDrawn; split <;> simp_all
@[simp] theorem rndDrawn_st : (s.rndDrawn).st = s.st := by unfold State.rndDrawn; split <;> simp_all
@[simp] theorem rndDrawn_disp : (s.rndDrawn).disp = s.disp := by unfold State.rndDrawn; split <;> simp_all
@[simp] theorem rndDrawn_held : (s.rndDrawn).held = s.held := by unfold State.rndDrawn; split <;> simp_all
@[simp] theorem rndDrawn_released : (s.rndDrawn).released = s.released := by unfold State.rndDrawn; split <;> simp_all
@[simp] theorem rndDrawn_quirk : (s.rndDrawn).quirk = s.quirk := by unfold State.rndDrawn; split <;> simp_all
@[simp] theorem rndDrawn_rndIn : (s.rndDrawn).rndIn = s.rndIn.tail := by unfold State.rndDrawn; split <;> simp_all
@[simp] theorem rndDrawn_rndCount : (s.rndDrawn).rndCount = if s.rndIn = [] then s.rndCount + 1 else s.rndCount := by unfold State.rndDrawn; split <;> simp_all

/-! ### setRegFlag -/

/-- The result first, the flag last (R153). -/
@[simp] theorem setRegFlag_eq (x : Reg) (r : Byte) (b : Bool) : s.setRegFlag x r b = (s.setReg x r).setFlag b := rfl

end Sys2Proof.Machine.State
end

