-- ==== Sys2Proof/Laws/Ops.lean ====
section
/-!
SUPPORT. Laws/Ops.lean: what each shared operation can do, said once: if it answers a state or a value, then exactly this
holds; otherwise exactly this error. Later proofs cite these and do not unfold the operations.
-/

namespace Sys2Proof.Machine

/-! ## A checked operation: its value when the check holds, its error otherwise -/

theorem checked_ok {ε α : Type} {c : Bool} {a b : α} {e : ε} :
    (if c then Except.ok a else Except.error e) = Except.ok b ↔ c = true ∧ b = a := by
  cases c
  · simp
  · simpa using eq_comm

theorem checked_error {ε α : Type} {c : Bool} {a : α} {e e' : ε} :
    (if c then Except.ok a else Except.error e) = Except.error e' ↔ c = false ∧ e' = e := by
  cases c
  · simpa using eq_comm
  · simp

/-! ## Registers -/

@[simp] theorem reg_setReg (s : State) (x r : Reg) (b : Byte) : (s.setReg x b).reg r = if r = x then b else s.reg r := by
  simp only [State.reg, State.setReg, Vector.get_eq_getElem]
  rw [Vector.getElem_set]
  by_cases h : r = x
  · simp [h]
  · have : ¬ x.val = r.val := fun e => h (Fin.ext e.symm)
    simp [h, this]

@[simp] theorem reg_setFlag (s : State) (r : Reg) (b : Bool) :
    (s.setFlag b).reg r = if r = VF then flag b else s.reg r := reg_setReg s VF r (flag b)

/-- A read of a register sees only V. -/
theorem reg_congr {s t : State} (h : t.v = s.v) (r : Reg) : t.reg r = s.reg r := by simp [State.reg, h]

@[simp] theorem reg_setPC (s : State) (a : Word) (r : Reg) : (s.setPC a).reg r = s.reg r := rfl
@[simp] theorem reg_setI (s : State) (a : Word) (r : Reg) : (s.setI a).reg r = s.reg r := rfl
@[simp] theorem reg_setDT (s : State) (x : Byte) (r : Reg) : (s.setDT x).reg r = s.reg r := rfl
@[simp] theorem reg_setST (s : State) (x : Byte) (r : Reg) : (s.setST x).reg r = s.reg r := rfl
@[simp] theorem reg_setDisp (s : State) (d : Raster s.disp.size.w s.disp.size.h) (r : Reg) :
    (s.setDisp d).reg r = s.reg r := rfl
@[simp] theorem reg_advance (s : State) (r : Reg) : s.advance.reg r = s.reg r := rfl
@[simp] theorem reg_rewind (s : State) (r : Reg) : s.rewind.reg r = s.reg r := rfl
@[simp] theorem reg_skipIf (s : State) (c : Bool) (r : Reg) : (s.skipIf c).reg r = s.reg r := reg_congr (by simp) r
@[simp] theorem reg_advanceI (s : State) (x r : Reg) : (s.advanceI x).reg r = s.reg r := reg_congr (by simp) r
@[simp] theorem reg_rndDrawn (s : State) (r : Reg) : s.rndDrawn.reg r = s.reg r := reg_congr (by simp) r

/-- The register file after a block load: index k + j holds the j-th byte, every other index is as before. -/
theorem loadInto_getElem (v : Vector Byte 16) (k : Nat) (bs : List Byte) (j : Nat) (hj : j < 16) :
    (loadInto v k bs)[j] = if k ≤ j then (bs[j - k]?).getD v[j] else v[j] := by
  induction bs generalizing v k with
  | nil => simp [loadInto]
  | cons x xs ih =>
    rw [loadInto, ih, Vector.getElem_setIfInBounds]
    rcases Nat.lt_trichotomy j k with h | h | h
    · rw [if_neg (by omega), if_neg (by omega), if_neg (by omega)]
    · subst h
      rw [if_neg (by omega), if_pos rfl, if_pos (Nat.le_refl _)]
      simp
    · rw [if_pos (by omega), if_neg (by omega), if_pos (by omega)]
      obtain ⟨d, hd⟩ : ∃ d, j - k = d + 1 := ⟨j - k - 1, by omega⟩
      rw [hd, List.getElem?_cons_succ, show j - (k + 1) = d by omega]

/-- Registers after loading from V0 on (R175). -/
theorem reg_setRegsFrom0 (s : State) (bs : List Byte) (r : Reg) :
    (s.setRegsFrom0 bs).reg r = (bs[r.val]?).getD (s.reg r) := by
  simp [State.reg, State.setRegsFrom0, Vector.get_eq_getElem, loadInto_getElem]

/-- The k-th of the registers in index order. -/
theorem regs_getElem (s : State) (k : Nat) (h : k < s.regs.length) (hk : k < 16) : s.regs[k] = s.reg ⟨k, hk⟩ := by
  simp [State.regs, State.reg, Vector.get_eq_getElem]

@[simp] theorem regs_length (s : State) : s.regs.length = 16 := by simp [State.regs]

/-! ## Memory accesses (R53, R54) -/

theorem inRange_iff (a len : Nat) : inRange a len = true ↔ a < Config.memSize ∧ a + len ≤ Config.memSize := by
  simp [inRange]

theorem memRead_ok {a n : Nat} {s : State} {bs : List Byte} :
    memRead a n s = .ok bs ↔ inRange a n = true ∧ bs = s.mem.getBytes a n :=
  checked_ok

theorem memRead_error {a n : Nat} {s : State} {e : Error} :
    memRead a n s = .error e ↔ inRange a n = false ∧ e = .memRange a n :=
  checked_error

theorem memWrite_ok {a : Nat} {bs : List Byte} {s t : State} :
    memWrite a bs s = .ok t ↔ inRange a bs.length = true ∧ t = { s with mem := s.mem.setBytes a bs } :=
  checked_ok

theorem memWrite_error {a : Nat} {bs : List Byte} {s : State} {e : Error} :
    memWrite a bs s = .error e ↔ inRange a bs.length = false ∧ e = .memRange a bs.length :=
  checked_error

/-- A block write keeps the canonical form. -/
theorem memWrite_wf {a : Nat} {bs : List Byte} {s t : State} (h : memWrite a bs s = .ok t) (hm : s.mem.wf = true) :
    t.mem.wf = true := by
  obtain ⟨hr, rfl⟩ := memWrite_ok.1 h
  exact Memory.wf_setBytes bs hm ((inRange_iff _ _).1 hr).2

/-! ## The call stack (R26) -/

/-- A push succeeds exactly with room, and then writes entry SP and counts it. -/
theorem push_ok {a : Word} {s t : State} :
    push a s = .ok t ↔ ∃ h : s.sp.val < 16,
      t = { s with stack := s.stack.set s.sp.val a h, sp := ⟨s.sp.val + 1, Nat.succ_lt_succ h⟩ } := by
  unfold push Config.stackDepth
  split
  · simp_all [eq_comm]
  · simp_all

theorem push_error {a : Word} {s : State} {e : Error} : push a s = .error e ↔ s.sp = 16 ∧ e = .stackOverflow := by
  unfold push Config.stackDepth
  have := s.sp.isLt
  split
  · have : s.sp ≠ 16 := fun h => by simp [h] at *
    simp [this]
  · have : s.sp = 16 := Fin.ext (by simp; omega)
    simp [this, eq_comm]

/-- A pop succeeds exactly with an entry in use, gives the topmost, and uncounts it; the entry keeps its value. -/
theorem pop_ok {s t : State} {a : Word} :
    pop s = .ok (a, t) ↔ ∃ (k : Nat) (h : k < 16), s.sp.val = k + 1 ∧ a = s.stack[k] ∧
      t = { s with sp := ⟨k, Nat.lt_of_lt_of_le h (by decide)⟩ } := by
  unfold pop
  split
  · rename_i h
    simp [h]
  · rename_i k hk h
    simp only [Except.ok.injEq, Prod.mk.injEq, Vector.get_eq_getElem]
    constructor
    · rintro ⟨rfl, rfl⟩
      exact ⟨k, by omega, by simp [h], rfl, rfl⟩
    · rintro ⟨j, hj, hs, rfl, rfl⟩
      rw [h] at hs
      obtain rfl : k = j := Nat.succ.inj hs
      exact ⟨rfl, rfl⟩

theorem pop_error {s : State} {e : Error} : pop s = .error e ↔ s.sp = 0 ∧ e = .stackUnderflow := by
  unfold pop
  split
  · rename_i h
    simp [h, eq_comm]
  · rename_i k hk h
    simp [h]

/-! ## Keys (R190, R193) -/

theorem keyOf_ok {s : State} {x : Reg} {k : Fin 16} : keyOf s x = .ok k ↔ (s.reg x).toNat = k.val := by
  unfold keyOf Config.numKeys
  split
  · simp [Fin.ext_iff]
  · have := k.isLt
    simp
    omega

theorem keyOf_error {s : State} {x : Reg} {e : Error} :
    keyOf s x = .error e ↔ 16 ≤ (s.reg x).toNat ∧ e = .keyRange (s.reg x) := by
  unfold keyOf Config.numKeys
  split
  · simp
    omega
  · simp [eq_comm]
    omega

/-- The least released key: released, and no smaller key is. -/
theorem leastReleased_some {s : State} {k : Nat} :
    s.leastReleased = some k ↔ ∃ h : k < 16, s.released[k] = true ∧ ∀ (j : Nat) (_ : j < k), s.released[j] = false := by
  unfold State.leastReleased
  rw [List.findIdx?_eq_some_iff_getElem]
  simp

theorem leastReleased_none {s : State} : s.leastReleased = none ↔ ∀ (k : Nat) (_ : k < 16), s.released[k] = false := by
  unfold State.leastReleased
  rw [List.findIdx?_eq_none_iff]
  simp only [Vector.mem_toList_iff, id_eq]
  constructor
  · intro h k hk
    exact h _ (Vector.getElem_mem hk)
  · intro h b hb
    obtain ⟨k, hk, rfl⟩ := Vector.getElem_of_mem hb
    exact h k hk

/-! ## Fetch and step (R80, R81) -/

theorem fetch_ok {s t : State} {w : Word} :
    fetch s = .ok (w, t) ↔ inRange s.pc.toNat 2 = true ∧ w = s.wordAtPC ∧ t = s.advance := by
  rw [fetch, checked_ok, Prod.mk.injEq]

theorem fetch_error {s : State} {e : Error} :
    fetch s = .error e ↔ inRange s.pc.toNat 2 = false ∧ e = .memRange s.pc.toNat 2 :=
  checked_error

/-- A step that answers a next state fetched a word, decoded it and ran its meaning on the state after the fetch. -/
theorem step_next {s t : State} (h : step s = .next t) :
    ∃ i, inRange s.pc.toNat 2 = true ∧ decode s.wordAtPC = some i ∧ exec i s.advance = .next t := by
  unfold step at h
  split at h
  · cases h
  · rename_i w u hf
    obtain ⟨hr, rfl, rfl⟩ := fetch_ok.1 hf
    split at h
    · cases h
    · exact ⟨_, hr, by assumption, h⟩

@[simp] theorem raise_ne_next (e : Error) (s t : State) : raise e s ≠ .next t := by simp [raise]

end Sys2Proof.Machine
end

