-- ==== Sys2Proof/Laws/Exec.lean ====
section
/-!
SUPPORT. Laws/Exec.lean: what a next state says, for the meanings that can also end in an error and for FX0A; and the state the
host operations on memory leave. The other meanings are one update each, so their next state is read off by `rfl`.
-/

namespace Sys2Proof.Machine

/-- A skip as one update of PC (R128). -/
theorem skipIf_eq (s : State) (c : Bool) : s.skipIf c = { s with pc := if c then s.pc + 2 else s.pc } := by cases c <;> rfl

/-- The number of registers FX55 stores. -/
@[simp] theorem regs_take_length (s : State) (x : Reg) : (s.regs.take (countOf x)).length = x.val + 1 := by
  simp [countOf]

theorem exec_ret_next {s t : State} (h : exec .ret s = .next t) :
    ∃ (k : Nat) (hk : k < 16), s.sp.val = k + 1 ∧
      t = { s with sp := ⟨k, Nat.lt_of_lt_of_le hk (by decide)⟩, pc := s.stack[k] } := by
  simp only [exec, execRet] at h
  split at h
  · cases h
  · rename_i hp
    obtain ⟨k, hk, hs, rfl, rfl⟩ := pop_ok.1 hp
    cases h
    exact ⟨k, hk, hs, rfl⟩

theorem exec_call_next {nnn : Addr12} {s t : State} (h : exec (.call nnn) s = .next t) :
    ∃ h : s.sp.val < 16, t = { s with stack := s.stack.set s.sp.val s.pc h, sp := ⟨s.sp.val + 1, Nat.succ_lt_succ h⟩, pc := addrOf nnn } := by
  simp only [exec, execCall] at h
  split at h
  · cases h
  · rename_i hp
    obtain ⟨h', rfl⟩ := push_ok.1 hp
    cases h
    exact ⟨h', rfl⟩

theorem exec_skp_next {x : Reg} {s t : State} (h : exec (.skp x) s = .next t) :
    ∃ k : Fin 16, (s.reg x).toNat = k.val ∧ t = s.skipIf (s.held.get k) := by
  simp only [exec, execSkp] at h
  split at h
  · cases h
  · rename_i k hk
    cases h
    exact ⟨k, keyOf_ok.1 hk, rfl⟩

theorem exec_sknp_next {x : Reg} {s t : State} (h : exec (.sknp x) s = .next t) :
    ∃ k : Fin 16, (s.reg x).toNat = k.val ∧ t = s.skipIf (!s.held.get k) := by
  simp only [exec, execSknp] at h
  split at h
  · cases h
  · rename_i k hk
    cases h
    exact ⟨k, keyOf_ok.1 hk, rfl⟩

theorem exec_ldVxK_next {x : Reg} {s t : State} (h : exec (.ldVxK x) s = .next t) :
    (∃ k, s.leastReleased = some k ∧ t = s.setReg x (BitVec.ofNat 8 k)) ∨ (s.leastReleased = none ∧ t = s.rewind) := by
  simp only [exec, execLdVxK] at h
  split at h <;> cases h
  · exact .inl ⟨_, by assumption, rfl⟩
  · exact .inr ⟨by assumption, rfl⟩

theorem exec_drw_next {x y : Reg} {n : Nat} {s t : State} (h : exec (.drw x y n) s = .next t) :
    inRange s.i.toNat n = true ∧ ∃ p, p = s.disp.px.draw (s.startCol x) (s.startRow y) (s.mem.getBytes s.i.toNat n) ∧
      t = (s.setDisp p.disp).setFlag p.coll := by
  simp only [exec, execDrw] at h
  split at h
  · cases h
  · rename_i hp
    obtain ⟨hr, rfl⟩ := memRead_ok.1 hp
    cases h
    exact ⟨hr, _, rfl, rfl⟩

theorem exec_ldB_next {x : Reg} {s t : State} (h : exec (.ldB x) s = .next t) :
    inRange s.i.toNat 3 = true ∧ t = { s with mem := s.mem.setBytes s.i.toNat (bcd (s.reg x)) } := by
  simp only [exec, execLdB] at h
  split at h
  · cases h
  · rename_i hp
    cases h
    exact memWrite_ok.1 hp

theorem exec_storeRegs_next {x : Reg} {s t : State} (h : exec (.storeRegs x) s = .next t) :
    inRange s.i.toNat (x.val + 1) = true ∧
      t = State.advanceI { s with mem := s.mem.setBytes s.i.toNat (s.regs.take (countOf x)) } x := by
  simp only [exec, execStoreRegs] at h
  split at h
  · cases h
  · rename_i hp
    cases h
    obtain ⟨hr, rfl⟩ := memWrite_ok.1 hp
    rw [regs_take_length] at hr
    exact ⟨hr, rfl⟩

theorem exec_loadRegs_next {x : Reg} {s t : State} (h : exec (.loadRegs x) s = .next t) :
    inRange s.i.toNat (x.val + 1) = true ∧
      t = (s.setRegsFrom0 (s.mem.getBytes s.i.toNat (x.val + 1))).advanceI x := by
  simp only [exec, execLoadRegs] at h
  split at h
  · cases h
  · rename_i hp
    cases h
    obtain ⟨hr, rfl⟩ := memRead_ok.1 hp
    exact ⟨hr, rfl⟩

/-- A write of the host's: Ok and the whole slice, or the error and nothing. -/
theorem writeSlice_ok {a len : Nat} {data : List Byte} {s t : State} :
    writeSlice a len data s = .ok t ↔ data.length = len ∧ memWrite a data s = .ok t := by
  unfold writeSlice
  split <;> simp_all

end Sys2Proof.Machine
end

