-- ==== Sys2Proof/Laws/PerInstr.lean ====
section
/-!
SUPPORT. Laws/PerInstr.lean: statements about every instruction as syntax, one lemma for each constructor.

Family `RowFits`: the word of an instruction has the fixed bits of the instruction's row of the opcode table (R84, R85).
-/

namespace Sys2Proof.Laws.RowFits

/-- The encoded word matches the instruction's row on every fixed bit. -/
def Statement (i : Instr) : Prop := i.row.fits (encode i) = true

theorem nnn_fits (name : String) (cat : BitVec 4) (nnn : Addr12) :
    (OpRow.mk name (cat ++ 0x000#12) 0xF000#16).fits (encNNN cat nnn) = true := by
  simp only [OpRow.fits, encNNN, beq_iff_eq]
  apply BitVec.eq_of_getLsbD_eq
  intro k hk
  simp only [BitVec.getLsbD_and, BitVec.getLsbD_append]
  interval_cases k <;> simp

theorem xnn_fits (name : String) (cat : BitVec 4) (x : Reg) (nn : Byte) :
    (OpRow.mk name (cat ++ 0x000#12) 0xF000#16).fits (encXNN cat x nn) = true := by
  simp only [OpRow.fits, encXNN, beq_iff_eq]
  apply BitVec.eq_of_getLsbD_eq
  intro k hk
  simp only [BitVec.getLsbD_and, BitVec.getLsbD_append]
  interval_cases k <;> simp

theorem xyn_fits (name : String) (cat : BitVec 4) (x y : Reg) (n : BitVec 4) :
    (OpRow.mk name (cat ++ 0x00#8 ++ n) 0xF00F#16).fits (encXYN cat x y n) = true := by
  simp only [OpRow.fits, encXYN, beq_iff_eq]
  apply BitVec.eq_of_getLsbD_eq
  intro k hk
  simp only [BitVec.getLsbD_and, BitVec.getLsbD_append]
  interval_cases k <;> simp

theorem drw_fits (x y : Reg) (n : BitVec 4) :
    (OpRow.mk "DXYN" 0xD000#16 0xF000#16).fits (encXYN 0xD#4 x y n) = true := by
  simp only [OpRow.fits, encXYN, beq_iff_eq]
  apply BitVec.eq_of_getLsbD_eq
  intro k hk
  simp only [BitVec.getLsbD_and, BitVec.getLsbD_append]
  interval_cases k <;> simp

theorem xfn_fits (name : String) (cat : BitVec 4) (x : Reg) (f : Byte) :
    (OpRow.mk name (cat ++ 0x0#4 ++ f) 0xF0FF#16).fits (encXFN cat x f) = true := by
  simp only [OpRow.fits, encXFN, beq_iff_eq]
  apply BitVec.eq_of_getLsbD_eq
  intro k hk
  simp only [BitVec.getLsbD_and, BitVec.getLsbD_append]
  interval_cases k <;> simp

theorem cls : Statement .cls := rfl
theorem ret : Statement .ret := rfl
theorem jp (nnn : Addr12) : Statement (.jp nnn) := nnn_fits _ _ _
theorem call (nnn : Addr12) : Statement (.call nnn) := nnn_fits _ _ _
theorem seImm (x : Reg) (nn : Byte) : Statement (.seImm x nn) := xnn_fits _ _ _ _
theorem sneImm (x : Reg) (nn : Byte) : Statement (.sneImm x nn) := xnn_fits _ _ _ _
theorem seReg (x y : Reg) : Statement (.seReg x y) := xyn_fits _ _ _ _ _
theorem ldImm (x : Reg) (nn : Byte) : Statement (.ldImm x nn) := xnn_fits _ _ _ _
theorem addImm (x : Reg) (nn : Byte) : Statement (.addImm x nn) := xnn_fits _ _ _ _
theorem ldReg (x y : Reg) : Statement (.ldReg x y) := xyn_fits _ _ _ _ _
theorem orReg (x y : Reg) : Statement (.orReg x y) := xyn_fits _ _ _ _ _
theorem andReg (x y : Reg) : Statement (.andReg x y) := xyn_fits _ _ _ _ _
theorem xorReg (x y : Reg) : Statement (.xorReg x y) := xyn_fits _ _ _ _ _
theorem addReg (x y : Reg) : Statement (.addReg x y) := xyn_fits _ _ _ _ _
theorem subReg (x y : Reg) : Statement (.subReg x y) := xyn_fits _ _ _ _ _
theorem shr (x y : Reg) : Statement (.shr x y) := xyn_fits _ _ _ _ _
theorem subnReg (x y : Reg) : Statement (.subnReg x y) := xyn_fits _ _ _ _ _
theorem shl (x y : Reg) : Statement (.shl x y) := xyn_fits _ _ _ _ _
theorem sneReg (x y : Reg) : Statement (.sneReg x y) := xyn_fits _ _ _ _ _
theorem ldI (nnn : Addr12) : Statement (.ldI nnn) := nnn_fits _ _ _
theorem jpV0 (nnn : Addr12) : Statement (.jpV0 nnn) := nnn_fits _ _ _
theorem rnd (x : Reg) (nn : Byte) : Statement (.rnd x nn) := xnn_fits _ _ _ _
theorem drw (x y : Reg) (n : Nat) : Statement (.drw x y n) := drw_fits _ _ _
theorem skp (x : Reg) : Statement (.skp x) := xfn_fits _ _ _ _
theorem sknp (x : Reg) : Statement (.sknp x) := xfn_fits _ _ _ _
theorem ldVxDT (x : Reg) : Statement (.ldVxDT x) := xfn_fits _ _ _ _
theorem ldVxK (x : Reg) : Statement (.ldVxK x) := xfn_fits _ _ _ _
theorem ldDTVx (x : Reg) : Statement (.ldDTVx x) := xfn_fits _ _ _ _
theorem ldSTVx (x : Reg) : Statement (.ldSTVx x) := xfn_fits _ _ _ _
theorem addI (x : Reg) : Statement (.addI x) := xfn_fits _ _ _ _
theorem ldF (x : Reg) : Statement (.ldF x) := xfn_fits _ _ _ _
theorem ldB (x : Reg) : Statement (.ldB x) := xfn_fits _ _ _ _
theorem storeRegs (x : Reg) : Statement (.storeRegs x) := xfn_fits _ _ _ _
theorem loadRegs (x : Reg) : Statement (.loadRegs x) := xfn_fits _ _ _ _

end Sys2Proof.Laws.RowFits
end

