-- ==== Sys2Proof/Laws/Raster.lean ====
section
/-!
SUPPORT. Laws/Raster.lean: what one pixel of the raster is after each raster operation.
-/

namespace Sys2Proof.Machine

variable {w h : Nat}

theorem Raster.pixel_of_lt (d : Raster w h) (c : Nat) {r : Nat} (hr : r < h) : d.pixel c r = d[r].getLsbD c := by
  simp [Raster.pixel, hr]

/-- There is no pixel outside the raster. -/
theorem Raster.pixel_outside (d : Raster w h) {c r : Nat} (ho : w ≤ c ∨ h ≤ r) : d.pixel c r = false := by
  by_cases hr : r < h
  · rw [Raster.pixel_of_lt d c hr]
    exact BitVec.getLsbD_of_ge _ _ (by omega)
  · simp [Raster.pixel, hr]

@[simp] theorem Raster.pixel_blank (c r : Nat) : (Raster.blank w h).pixel c r = false := by
  by_cases hr : r < h
  · rw [Raster.pixel_of_lt _ c hr]
    simp [Raster.blank]
  · exact Raster.pixel_outside _ (by omega)

/-- A flip inside the raster changes that pixel and no other. -/
theorem Raster.pixel_flip (d : Raster w h) {c r : Nat} (hc : c < w) (hr : r < h) (c' r' : Nat) :
    (d.flip c r).pixel c' r' = (d.pixel c' r' ^^ (decide (c' = c) && decide (r' = r))) := by
  by_cases hr' : r' < h
  · rw [Raster.pixel_of_lt _ c' hr', Raster.pixel_of_lt _ c' hr']
    simp only [Raster.flip, hr, Vector.getElem?_eq_getElem, Vector.getElem_setIfInBounds]
    by_cases he : r = r'
    · subst he
      by_cases hcc : c' = c
      · simp [hcc, hc]
      · have : ¬ c = c' := fun e => hcc e.symm
        simp [hcc, this, BitVec.getLsbD_twoPow]
    · have : ¬ r' = r := fun e => he e.symm
      simp [he, this]
  · have : ¬ r' = r := by omega
    simp [Raster.pixel_outside _ (Or.inr (Nat.le_of_not_lt hr')), this]

/-- Rasters with the same pixels are the same raster. -/
theorem Raster.ext_pixel {d e : Raster w h} (hp : ∀ c r, c < w → r < h → d.pixel c r = e.pixel c r) : d = e := by
  apply Vector.ext
  intro r hr
  apply BitVec.eq_of_getLsbD_eq
  intro c hc
  have := hp c r hc hr
  rwa [Raster.pixel_of_lt _ _ hr, Raster.pixel_of_lt _ _ hr] at this

/-! ### The display (R6, R28) -/

@[simp] theorem Display.pixel_mk (size : Config.DisplaySize) (px : Raster size.w size.h) (c r : Nat) :
    (Display.mk size px).pixel c r = px.pixel c r := rfl

@[simp] theorem Display.blank_size (size : Config.DisplaySize) : (Display.blank size).size = size := rfl

@[simp] theorem Display.pixel_blank (size : Config.DisplaySize) (c r : Nat) : (Display.blank size).pixel c r = false :=
  Raster.pixel_blank c r

/-- Displays of one size with the same pixels are the same display. -/
theorem Display.ext_pixel {d e : Display} (hs : d.size = e.size)
    (hp : ∀ c r, c < e.size.w → r < e.size.h → d.pixel c r = e.pixel c r) : d = e := by
  obtain ⟨size, px⟩ := d
  obtain ⟨_, qx⟩ := e
  subst hs
  exact congrArg _ (Raster.ext_pixel hp)

/-! ### Plotting -/

/-- One plotted bit flips its pixel when it is a 1 inside the raster. -/
theorem Canvas.plot_pixel (p : Canvas w h) (c r : Nat) (bit : Bool) {c' r' : Nat} (hc' : c' < w) (hr' : r' < h) :
    (p.plot c r bit).disp.pixel c' r' = (p.disp.pixel c' r' ^^ (bit && decide (c' = c) && decide (r' = r))) := by
  unfold Canvas.plot
  split
  · rename_i hg
    simp only [Bool.and_eq_true, decide_eq_true_eq] at hg
    simp [Raster.pixel_flip _ hg.1.2 hg.2, hg.1.1]
  · rename_i hg
    simp only [Bool.and_eq_true, decide_eq_true_eq, not_and] at hg
    cases bit
    · simp
    · by_cases h1 : c' = c
      · by_cases h2 : r' = r
        · subst h1 h2
          exact absurd hr' (hg ⟨rfl, hc'⟩)
        · simp [h2]
      · simp [h1]

/-- One plotted bit reports a collision when it turns a set pixel off. -/
theorem Canvas.plot_coll (p : Canvas w h) (c r : Nat) (bit : Bool) :
    (p.plot c r bit).coll = (p.coll || (bit && p.disp.pixel c r)) := by
  unfold Canvas.plot
  split
  · rename_i hg
    simp only [Bool.and_eq_true, decide_eq_true_eq] at hg
    simp [hg.1.1]
  · rename_i hg
    cases bit
    · simp
    · have : p.disp.pixel c r = false := by
        apply Raster.pixel_outside
        simp only [Bool.and_eq_true, decide_eq_true_eq, true_and, not_and, Nat.not_lt] at hg
        omega
      simp [this]

end Sys2Proof.Machine
end

