-- ==== Sys2Proof/Machine/Asm.lean ====
section
/-!
DEFINITION. Machine/Asm.lean: the assembly syntax of R90 and R91, for listings. It has no part in the meaning of a program
(D21; log entry 23): a line assembles to one word, or to the bytes of DB, in order.
-/

namespace Sys2Proof.Machine

/-- One hexadecimal digit, 0 to F. -/
def hexDigit (n : Nat) : String :=
  (["0", "1", "2", "3", "4", "5", "6", "7", "8", "9", "A", "B", "C", "D", "E", "F"][n % 16]?).getD "0"

/-- The name of a general register, V0 to VF (R22). -/
def regName (x : Reg) : String := "V" ++ hexDigit x.val

/-- A byte as 0x and two digits. -/
def hexByte (b : Byte) : String := "0x" ++ hexDigit (b.toNat / 16) ++ hexDigit b.toNat

/-- An address as 0x and three digits. -/
def hexAddr (a : Addr12) : String := "0x" ++ hexDigit (a.toNat / 256) ++ hexDigit (a.toNat / 16) ++ hexDigit a.toNat

/-- The assembly line of an instruction (R90). -/
def asm : Instr → String
  | .cls => "CLS"
  | .ret => "RET"
  | .jp nnn => "JP " ++ hexAddr nnn
  | .call nnn => "CALL " ++ hexAddr nnn
  | .seImm x nn => "SE " ++ regName x ++ ", " ++ hexByte nn
  | .sneImm x nn => "SNE " ++ regName x ++ ", " ++ hexByte nn
  | .seReg x y => "SE " ++ regName x ++ ", " ++ regName y
  | .ldImm x nn => "LD " ++ regName x ++ ", " ++ hexByte nn
  | .addImm x nn => "ADD " ++ regName x ++ ", " ++ hexByte nn
  | .ldReg x y => "LD " ++ regName x ++ ", " ++ regName y
  | .orReg x y => "OR " ++ regName x ++ ", " ++ regName y
  | .andReg x y => "AND " ++ regName x ++ ", " ++ regName y
  | .xorReg x y => "XOR " ++ regName x ++ ", " ++ regName y
  | .addReg x y => "ADD " ++ regName x ++ ", " ++ regName y
  | .subReg x y => "SUB " ++ regName x ++ ", " ++ regName y
  | .shr x y => "SHR " ++ regName x ++ ", " ++ regName y
  | .subnReg x y => "SUBN " ++ regName x ++ ", " ++ regName y
  | .shl x y => "SHL " ++ regName x ++ ", " ++ regName y
  | .sneReg x y => "SNE " ++ regName x ++ ", " ++ regName y
  | .ldI nnn => "LD I, " ++ hexAddr nnn
  | .jpV0 nnn => "JP V0, " ++ hexAddr nnn
  | .rnd x nn => "RND " ++ regName x ++ ", " ++ hexByte nn
  | .drw x y n => "DRW " ++ regName x ++ ", " ++ regName y ++ ", 0x" ++ hexDigit n
  | .skp x => "SKP " ++ regName x
  | .sknp x => "SKNP " ++ regName x
  | .ldVxDT x => "LD " ++ regName x ++ ", DT"
  | .ldVxK x => "LD " ++ regName x ++ ", K"
  | .ldDTVx x => "LD DT, " ++ regName x
  | .ldSTVx x => "LD ST, " ++ regName x
  | .addI x => "ADD I, " ++ regName x
  | .ldF x => "LD F, " ++ regName x
  | .ldB x => "LD B, " ++ regName x
  | .storeRegs x => "LD [I], " ++ regName x
  | .loadRegs x => "LD " ++ regName x ++ ", [I]"

/-- A line of a listing: an instruction, or DB with its bytes (R90). -/
inductive AsmLine where
  | instr (i : Instr)
  | db (bytes : List Byte)
  deriving DecidableEq, Repr

/-- The text of a line: the instruction's mnemonic line, or DB and its bytes (R90). -/
def AsmLine.text : AsmLine → String
  | .instr i => asm i
  | .db bs => "DB " ++ String.intercalate ", " (bs.map hexByte)

/-- The bytes of a line: one word, most significant byte first, or the data bytes in order (R91). -/
def AsmLine.bytes : AsmLine → List Byte
  | .instr i => encodeBytes i
  | .db bs => bs

/-- The bytes of a listing, in order (R91). -/
def assemble (lines : List AsmLine) : List Byte := lines.flatMap AsmLine.bytes

end Sys2Proof.Machine
end

