-- ==== Sys2Proof/Tests/Slice0.lean ====
section
/-!
SUPPORT. Tests/Slice0.lean: the model's own tests. Expected results come from the spec: words from the encodings of 30_encoding.md,
states from the vectors of 95_test_vectors.md (named in each comment). The theorems `witness_<Name>` show that the hypotheses of
the statement `Obligations.<Name>` can be met, clause by clause.
-/

namespace Sys2Proof.Tests

open Sys2Proof Sys2Proof.Machine

/-! ## Well-formedness -/

/-- The one check of `Instr.wellFormed`: a sprite height is a nibble. -/
theorem test_wf_refuses_sixteen_rows : (Instr.drw 0 0 16).wellFormed = false := by decide
theorem test_wf_accepts_fifteen_rows : (Instr.drw 15 15 15).wellFormed = true := by decide

/-! ## Decoding: one word of every row of the table, written out from its encoding -/

theorem test_decode_cls : decode 0b0000000011100000#16 = some (.cls) := by decide
theorem test_decode_ret : decode 0b0000000011101110#16 = some (.ret) := by decide
theorem test_decode_jp : decode 0b0001001000110100#16 = some (.jp 0x234) := by decide
theorem test_decode_call : decode 0b0010111111111111#16 = some (.call 0xFFF) := by decide
theorem test_decode_seImm : decode 0b0011001101000010#16 = some (.seImm 3 0x42) := by decide
theorem test_decode_sneImm : decode 0b0100001101000010#16 = some (.sneImm 3 0x42) := by decide
theorem test_decode_seReg : decode 0b0101000100100000#16 = some (.seReg 1 2) := by decide
theorem test_decode_ldImm : decode 0b0110101001111011#16 = some (.ldImm 10 0x7B) := by decide
theorem test_decode_addImm : decode 0b0111111100000001#16 = some (.addImm 15 0x01) := by decide
theorem test_decode_ldReg : decode 0b1000000100100000#16 = some (.ldReg 1 2) := by decide
theorem test_decode_orReg : decode 0b1000000100100001#16 = some (.orReg 1 2) := by decide
theorem test_decode_andReg : decode 0b1000000100100010#16 = some (.andReg 1 2) := by decide
theorem test_decode_xorReg : decode 0b1000000100100011#16 = some (.xorReg 1 2) := by decide
theorem test_decode_addReg : decode 0b1000000100100100#16 = some (.addReg 1 2) := by decide
theorem test_decode_subReg : decode 0b1000000100100101#16 = some (.subReg 1 2) := by decide
theorem test_decode_shr : decode 0b1000000100100110#16 = some (.shr 1 2) := by decide
theorem test_decode_subnReg : decode 0b1000000100100111#16 = some (.subnReg 1 2) := by decide
theorem test_decode_shl : decode 0b1000000100101110#16 = some (.shl 1 2) := by decide
theorem test_decode_sneReg : decode 0b1001000100100000#16 = some (.sneReg 1 2) := by decide
theorem test_decode_ldI : decode 0b1010001100000000#16 = some (.ldI 0x300) := by decide
theorem test_decode_jpV0 : decode 0b1011001100000001#16 = some (.jpV0 0x301) := by decide
theorem test_decode_rnd : decode 0b1100001100001111#16 = some (.rnd 3 0x0F) := by decide
theorem test_decode_drw : decode 0b1101000000010010#16 = some (.drw 0 1 2) := by decide
theorem test_decode_skp : decode 0b1110010110011110#16 = some (.skp 5) := by decide
theorem test_decode_sknp : decode 0b1110010110100001#16 = some (.sknp 5) := by decide
theorem test_decode_ldVxDT : decode 0b1111010000000111#16 = some (.ldVxDT 4) := by decide
theorem test_decode_ldVxK : decode 0b1111001100001010#16 = some (.ldVxK 3) := by decide
theorem test_decode_ldDTVx : decode 0b1111001100010101#16 = some (.ldDTVx 3) := by decide
theorem test_decode_ldSTVx : decode 0b1111001100011000#16 = some (.ldSTVx 3) := by decide
theorem test_decode_addI : decode 0b1111001000011110#16 = some (.addI 2) := by decide
theorem test_decode_ldF : decode 0b1111010100101001#16 = some (.ldF 5) := by decide
theorem test_decode_ldB : decode 0b1111101000110011#16 = some (.ldB 10) := by decide
theorem test_decode_storeRegs : decode 0b1111000101010101#16 = some (.storeRegs 1) := by decide
theorem test_decode_loadRegs : decode 0b1111001001100101#16 = some (.loadRegs 2) := by decide

/-- Invalid words (vectors F6 to F14), one and more of each category that has some. -/
theorem test_decode_invalid :
    decode 0x0123#16 = none ∧ decode 0x00E1#16 = none ∧ decode 0x0000#16 = none ∧ decode 0x5121#16 = none ∧
    decode 0x8128#16 = none ∧ decode 0x812F#16 = none ∧ decode 0x9121#16 = none ∧ decode 0xE000#16 = none ∧
    decode 0xF000#16 = none ∧ decode 0xF066#16 = none := by decide

/-- The host's numbering: the first byte in memory is the high byte of the word (R55). -/
theorem test_decodeTableWord : decodeTableWord 16 0x1234 = some (.jp 0x234) ∧ decodeTableWord 16 0x0123 = none := by decide
theorem test_decodeBytes_leaves_the_rest : decodeBytes [0x12, 0x34, 0xFF] = .ok (.jp 0x234, [0xFF]) ∧
    decodeBytes [0x12] = .error .truncated := by decide

/-- Assembly (R90, R91): a DRW line of program P3 and its two data bytes. -/
theorem test_assemble : asm (.drw 0 1 2) = "DRW V0, V1, 0x2" ∧ (AsmLine.db [0xF0, 0x90]).text = "DB 0xF0, 0x90" ∧
    assemble [.instr (.drw 0 1 2), .db [0xF0, 0x90]] = [0xD0, 0x12, 0xF0, 0x90] := by decide

/-! ## One step on a small state -/

/-- Registers: the listed ones, every other 0. -/
def regs (l : List (Reg × Byte)) : Vector Byte 16 := l.foldl (fun v p => v.set p.1 p.2) (Vector.replicate 16 0)

/-- The reset state with the word under test at 0x200 and the listed registers. -/
def start (w : Word) (l : List (Reg × Byte)) : State := { State.reset.withFetchWord 16 w.toNat with v := regs l }

/-- The reset state with bytes stored at an address. -/
def withBytes (a : Nat) (bs : List Byte) (s : State) : State := { s with mem := s.mem.setBytes a bs }

/-- A display of a size with the listed pixels (column, row) set. -/
def pixelsOn (size : Config.DisplaySize) (l : List (Nat × Nat)) : Display :=
  ⟨size, l.foldl (fun d p => d.flip p.1 p.2) (Raster.blank _ _)⟩

/-- The same on a display of the decided size. -/
def pixels (l : List (Nat × Nat)) : Display := pixelsOn Config.displaySize l

/-- A display of another size, 10 columns by 3 rows. -/
def small : Config.DisplaySize := ⟨10, 3, by decide, by decide⟩

/-- What a step shows of its next state, if it answers one. -/
def shown {α : Type} (r : Result) (f : State → α) : Option α :=
  match r with
  | .next t => some (f t)
  | .fault _ => none
  | .refused _ => none

/-- The fault of a step, if it answers one. -/
def faultShown (r : Result) : Option Fault :=
  match r with
  | .next _ => none
  | .fault f => some f
  | .refused _ => none

/-- Vector F1. -/
theorem test_fetch_odd_pc : shown (step { start 0x6001 [] with pc := 0x201, mem := [(0x201, 0x60), (0x202, 0x01)] }) (fun t => (t.reg 0, t.pc)) = some (1, 0x203) := by decide
/-- Vector F2. -/
theorem test_fetch_top : shown (step { start 0x6001 [] with pc := 0xFFE, mem := [(0xFFE, 0x60), (0xFFF, 0x01)] }) (fun t => (t.reg 0, t.pc)) = some (1, 0x1000) := by decide
/-- Vector F3. -/
theorem test_fetch_last_byte : faultShown (step { start 0x6001 [] with pc := 0xFFF }) = some (.memRange 0xFFF 0xFFF 2) := by decide
/-- Vector F5. -/
theorem test_first_step_from_reset : faultShown (step State.reset) = some (.invalidOpcode 0x200 0) := by decide
/-- Vector D1. -/
theorem test_cls : shown (step { start 0x00E0 [(15, 7)] with disp := pixels [(0, 0), (63, 31), (10, 5)] }) (fun t => (t.disp.pixel 0 0, t.disp.pixel 63 31, t.disp.pixel 10 5, t.reg 15)) = some (false, false, false, 7) := by decide
/-- Vectors D2 and D10. -/
theorem test_drw_clips_and_collides : shown (step (withBytes 0x300 [0xF0, 0x90] { start 0xD012 [(0, 0x7E), (15, 9)] with i := 0x300 }))
      (fun t => (t.disp, t.reg 15)) = some (pixels [(62, 0), (63, 0), (62, 1)], 0) ∧
    shown (step (withBytes 0x300 [0x81] { start 0xD011 [] with i := 0x300, disp := pixels [(0, 0), (1, 0)] }))
      (fun t => (t.disp, t.reg 15)) = some (pixels [(7, 0), (1, 0)], 1) := by decide
/-- Vector D11, and R101 on a display of 10 by 3: start (12 mod 10, 5 mod 3) = (2, 2), the second row clipped. -/
theorem test_drw_old_vf_and_another_size : shown (step (withBytes 0x300 [0x80] { start 0xDFF1 [(15, 2)] with i := 0x300 }))
      (fun t => (t.disp.pixel 2 2, t.reg 15)) = some (true, 0) ∧
    shown (step (withBytes 0x300 [0x81, 0xFF] { start 0xD012 [(0, 12), (1, 5)] with i := 0x300, disp := .blank small }))
      (fun t => t.disp) = some (pixelsOn small [(2, 2), (9, 2)]) := by decide
/-- Vector K3. -/
theorem test_ret : shown (step { start 0x00EE [] with sp := 16, stack := State.reset.stack.set 15 0x444 }) (fun t => (t.pc, t.sp)) = some (0x444, 15) := by decide
/-- Vector K2. -/
theorem test_ret_underflow : faultShown (step (start 0x00EE [])) = some (.stackUnderflow 0x200) := by decide
/-- Vector K4. -/
theorem test_jp : shown (step (start 0x1234 [])) (fun t => t.pc) = some 0x234 := by decide
/-- Vector K8. -/
theorem test_call : shown (step { start 0x2300 [] with sp := 15 }) (fun t => (t.pc, t.sp, t.stack.get 15)) = some (0x300, 16, 0x202) := by decide
/-- Vector K9. -/
theorem test_call_overflow : faultShown (step { start 0x2300 [] with sp := 16 }) = some (.stackOverflow 0x200) := by decide
/-- Vector K10. -/
theorem test_seImm_equal : shown (step (start 0x3342 [(3, 0x42)])) (fun t => t.pc) = some 0x204 := by decide
/-- Vector K11. -/
theorem test_seImm_different : shown (step (start 0x3342 [(3, 0x41)])) (fun t => t.pc) = some 0x202 := by decide
/-- Vector K14. -/
theorem test_sneImm_different : shown (step (start 0x4342 [(3, 0x41)])) (fun t => t.pc) = some 0x204 := by decide
/-- Vector K15. -/
theorem test_sneImm_equal : shown (step (start 0x4342 [(3, 0x42)])) (fun t => t.pc) = some 0x202 := by decide
/-- Vector K16. -/
theorem test_seReg_equal : shown (step (start 0x5120 [(1, 7), (2, 7)])) (fun t => t.pc) = some 0x204 := by decide
/-- Vector K17. -/
theorem test_seReg_different : shown (step (start 0x5120 [(1, 7), (2, 8)])) (fun t => t.pc) = some 0x202 := by decide
/-- Vector K19. -/
theorem test_sneReg_different : shown (step (start 0x9120 [(1, 7), (2, 8)])) (fun t => t.pc) = some 0x204 := by decide
/-- Vector K20. -/
theorem test_sneReg_equal : shown (step (start 0x9120 [(1, 7), (2, 7)])) (fun t => t.pc) = some 0x202 := by decide
/-- Vector K22. -/
theorem test_jpV0_quirk_off : shown (step (start 0xB300 [(0, 0x10), (3, 0x20)])) (fun t => t.pc) = some 0x310 := by decide
/-- Vector K23. -/
theorem test_jpV0_quirk_on : shown (step { start 0xB300 [(0, 0x10), (3, 0x20)] with quirk := true }) (fun t => t.pc) = some 0x320 := by decide
/-- Vector A2. -/
theorem test_ldImm : shown (step (start 0x6F01 [(15, 9)])) (fun t => t.reg 15) = some 1 := by decide
/-- Vector A3. -/
theorem test_addImm_wraps : shown (step (start 0x70FA [(0, 10), (15, 0x55)])) (fun t => (t.reg 0, t.reg 15)) = some (4, 0x55) := by decide
/-- Vector A6. -/
theorem test_ldReg : shown (step (start 0x8120 [(1, 1), (2, 0x33)])) (fun t => (t.reg 1, t.reg 2)) = some (0x33, 0x33) := by decide
/-- Vector A7. -/
theorem test_orReg : shown (step (start 0x8121 [(1, 0x0F), (2, 0xF0), (15, 5)])) (fun t => (t.reg 1, t.reg 15)) = some (0xFF, 5) := by decide
/-- Vector A8. -/
theorem test_andReg : shown (step (start 0x8122 [(1, 0x3C), (2, 0x0F)])) (fun t => t.reg 1) = some 0x0C := by decide
/-- Vector A9. -/
theorem test_xorReg : shown (step (start 0x8123 [(1, 0x3C), (2, 0x0F)])) (fun t => t.reg 1) = some 0x33 := by decide
/-- Vector E4. -/
theorem test_addReg_carries : shown (step (start 0x8124 [(1, 200), (2, 100)])) (fun t => (t.reg 1, t.reg 15)) = some (44, 1) := by decide
/-- Vector A14. -/
theorem test_addReg_flag_last : shown (step (start 0x8F14 [(1, 0x80), (15, 0x80)])) (fun t => t.reg 15) = some 1 := by decide
/-- Vector E5. -/
theorem test_subReg_borrows : shown (step (start 0x8125 [(1, 5), (2, 10), (15, 9)])) (fun t => (t.reg 1, t.reg 15)) = some (0xFB, 0) := by decide
/-- Vector A16. -/
theorem test_subReg_equal : shown (step (start 0x8125 [(1, 7), (2, 7)])) (fun t => (t.reg 1, t.reg 15)) = some (0, 1) := by decide
/-- Vector A18. -/
theorem test_subnReg_borrows : shown (step (start 0x8127 [(1, 10), (2, 5)])) (fun t => (t.reg 1, t.reg 15)) = some (0xFB, 0) := by decide
/-- Vector A19. -/
theorem test_subnReg : shown (step (start 0x8127 [(1, 5), (2, 10)])) (fun t => (t.reg 1, t.reg 15)) = some (5, 1) := by decide
/-- Vector A21. -/
theorem test_shr_quirk_off : shown (step (start 0x8126 [(1, 5), (2, 0x80)])) (fun t => (t.reg 1, t.reg 15)) = some (0x40, 0) := by decide
/-- Vector A22. -/
theorem test_shr_quirk_on : shown (step { start 0x8126 [(1, 5), (2, 0x80)] with quirk := true }) (fun t => (t.reg 1, t.reg 15)) = some (2, 1) := by decide
/-- Vector A23. -/
theorem test_shl_quirk_off : shown (step (start 0x812E [(1, 0x81), (2, 0x41)])) (fun t => (t.reg 1, t.reg 15)) = some (0x82, 0) := by decide
/-- Vector A24. -/
theorem test_shl_quirk_on : shown (step { start 0x812E [(1, 0x81), (2, 0x41)] with quirk := true }) (fun t => (t.reg 1, t.reg 15)) = some (2, 1) := by decide
/-- Vector A28. -/
theorem test_rnd_masks : shown (stepWith 0xA5 (start 0xC30F [])) (fun t => (t.reg 3, t.pc, t.rndIn)) = some (5, 0x202, []) := by decide
/-- Vector M2. -/
theorem test_ldI : shown (step (start 0xAFFF [])) (fun t => t.i) = some 0xFFF := by decide
/-- Vector M5. -/
theorem test_addI_crosses : shown (step { start 0xF21E [(2, 1)] with i := 0xFFF }) (fun t => (t.i, t.reg 15)) = some (0x1000, 1) := by decide
/-- Vector M7. -/
theorem test_addI_wraps : shown (step { start 0xF21E [(2, 1), (15, 1)] with i := 0xFFFF }) (fun t => (t.i, t.reg 15)) = some (0, 0) := by decide
/-- Vector M12. -/
theorem test_ldF : shown (step (start 0xF529 [(5, 0xFF)])) (fun t => t.i) = some 0x4FB := by decide
/-- Vector M15. -/
theorem test_ldB : shown (step { start 0xFA33 [(10, 255)] with i := 0x300 }) (fun t => (t.mem.getBytes 0x300 3, t.i)) = some ([2, 5, 5], 0x300) := by decide
/-- Vector M17. -/
theorem test_ldB_out_of_range : faultShown (step { start 0xFA33 [(10, 9)] with i := 0xFFE }) = some (.memRange 0x200 0xFFE 3) := by decide
/-- Vector M19. -/
theorem test_storeRegs_quirk_off : shown (step { start 0xF155 [(0, 1), (1, 2), (2, 3)] with i := 0x300 }) (fun t => (t.mem.getBytes 0x300 3, t.i)) = some ([1, 2, 0], 0x302) := by decide
/-- Vector M22. -/
theorem test_storeRegs_out_of_range : faultShown (step { start 0xFF55 [] with i := 0xFF1 }) = some (.memRange 0x200 0xFF1 16) := by decide
/-- Vector M24. -/
theorem test_loadRegs_quirk_off : shown (step (withBytes 0x300 [1, 2, 3, 4] { start 0xF265 [(3, 9)] with i := 0x300 }))
    (fun t => (t.reg 0, t.reg 1, t.reg 2, t.reg 3, t.i)) = some (1, 2, 3, 9, 0x303) := by decide
/-- Vector M25. -/
theorem test_loadRegs_quirk_on : shown (step (withBytes 0x300 [1, 2, 3] { start 0xF265 [] with i := 0x300, quirk := true }))
    (fun t => (t.reg 2, t.i)) = some (3, 0x300) := by decide
/-- Vector T1. -/
theorem test_skp_held : shown (step { start 0xE59E [(5, 10)] with held := State.reset.held.set 10 true }) (fun t => t.pc) = some 0x204 := by decide
/-- Vector T4. -/
theorem test_skp_key_range : faultShown (step (start 0xE59E [(5, 16)])) = some (.keyRange 0x200 16) := by decide
/-- Vector T5. -/
theorem test_sknp_not_held : shown (step (start 0xE5A1 [(5, 10)])) (fun t => t.pc) = some 0x204 := by decide
/-- Vector T6. -/
theorem test_sknp_held : shown (step { start 0xE5A1 [(5, 10)] with held := State.reset.held.set 10 true }) (fun t => t.pc) = some 0x202 := by decide
/-- Vector T8. -/
theorem test_ldVxDT : shown (step { start 0xF407 [(4, 1)] with dt := 6 }) (fun t => (t.reg 4, t.dt)) = some (6, 6) := by decide
/-- Vector T10. -/
theorem test_ldVxK_waits : shown (step (start 0xF30A [(3, 5)])) (fun t => (t.reg 3, t.pc)) = some (5, 0x200) := by decide
/-- Vector T12. -/
theorem test_ldVxK_takes_the_least : shown (step { start 0xF30A [] with released := ((State.reset.released.set 12 true).set 9 true).set 3 true }) (fun t => (t.reg 3, t.pc, t.released.get 3)) = some (3, 0x202, true) := by decide
/-- Vector T15. -/
theorem test_ldDTVx : shown (step (start 0xF315 [(3, 7)])) (fun t => (t.dt, t.st)) = some (7, 0) := by decide
/-- Vector T16. -/
theorem test_ldSTVx : shown (step (start 0xF318 [(3, 7)])) (fun t => (t.dt, t.st)) = some (0, 7) := by decide

/-! ## What an error leaves, and the host operations -/

/-- Vectors K9 and F3: an execute error leaves the fetch's advance, a fetch error nothing. -/
theorem test_error_leaves : (stepWithLeft 0 { start 0x2300 [] with sp := 16 }).pc = 0x202 ∧
    (stepWithLeft 0 { start 0x2300 [] with pc := 0xFFF }).pc = 0xFFF := by decide
/-- Vectors H1 to H3. -/
theorem test_tickTimers : (tickTimers { State.reset with dt := 5 }).dt = 4 ∧ (tickTimers { State.reset with st := 1 }).st = 0 ∧
    (tickTimers State.reset).dt = 0 := by decide
/-- Vectors H4 to H6. -/
theorem test_readByte : (hostOp (.readByte 0xFFF) State.reset).1 = .byte 0 ∧
    (hostOp (.readByte 0x1000) State.reset).1 = .error (.memRange 0x1000 1) := by decide
/-- Vectors H8 and H9. -/
theorem test_readSlice_of_no_byte : (hostOp (.readSlice 0x1000 0) State.reset).1 = .error (.memRange 0x1000 0) ∧
    (hostOp (.readSlice 0xFFF 0) State.reset).1 = .bytes [] := by decide
/-- Vector H10. -/
theorem test_writeSlice_length : (hostOp (.writeSlice 0x300 2 [1, 2, 3]) State.reset).1 = .error (.memRange 0x300 2) := by decide
/-- Vector H14. -/
theorem test_reset : (resetOp { start 0x1234 [(1, 4)] with pc := 0x300, quirk := true }) = construct Config.displaySize true := by decide
/-- Reset on a display of another size keeps the size (R6). -/
theorem test_reset_keeps_the_size : resetOp { start 0x1234 [] with disp := pixelsOn small [(9, 2)] } = construct small false := by decide
/-- Vector H15. -/
theorem test_key_setters : let s := setHeld 7 false (setReleased 7 true State.reset)
    (s.released.get 7, s.held.get 7) = (true, false) := by decide
/-- Vector E1. -/
theorem test_loadProgram : (hostOp (.readSlice 0x200 3) (hostOp (.loadProgram 0x200 [0x12, 0x34, 0x56]) State.reset).2).1 =
    .bytes [0x12, 0x34, 0x56] := by decide
/-- Vector H16, on a raster of 4 columns by 2 rows: row-major order. -/
theorem test_view_is_row_major : ((Raster.blank 4 2).flip 3 1).view = [false, false, false, false, false, false, false, true] := by
  decide
/-- Memory stays canonical: writing a 0 removes the cell (R50). -/
theorem test_memory_canonical : Memory.set [(1, 5), (3, 6)] 1 0 = [(3, 6)] ∧ Memory.set [(1, 5)] 0 7 = [(0, 7), (1, 5)] ∧
    Memory.wf [(1, 5), (1, 6)] = false ∧ Memory.wf [(1, 0)] = false ∧ Memory.wf [(4096, 1)] = false := by decide
/-! ## Witnesses: the hypotheses of each statement can be met, clause by clause -/

theorem witness_DecodeOfEncodeIsTheInstruction : (Instr.drw 15 15 15).wellFormed = true ∧ (Instr.cls).wellFormed = true := by decide
theorem witness_DecodedWordIsItsEncoding : decode 0x8124#16 = some (.addReg 1 2) := by decide

/-- Every row with fields, its fields at their greatest values; the two rows with none are their own words. -/
theorem witness_EveryTableRowDecodesWithItsFields :
    0x1FFF#16 &&& 0xF000#16 = 0x1000#16 ∧ 0x2FFF#16 &&& 0xF000#16 = 0x2000#16 ∧
    0x3FFF#16 &&& 0xF000#16 = 0x3000#16 ∧ 0x4FFF#16 &&& 0xF000#16 = 0x4000#16 ∧
    0x5FF0#16 &&& 0xF00F#16 = 0x5000#16 ∧ 0x6FFF#16 &&& 0xF000#16 = 0x6000#16 ∧
    0x7FFF#16 &&& 0xF000#16 = 0x7000#16 ∧ 0x8FF0#16 &&& 0xF00F#16 = 0x8000#16 ∧
    0x8FF1#16 &&& 0xF00F#16 = 0x8001#16 ∧ 0x8FF2#16 &&& 0xF00F#16 = 0x8002#16 ∧
    0x8FF3#16 &&& 0xF00F#16 = 0x8003#16 ∧ 0x8FF4#16 &&& 0xF00F#16 = 0x8004#16 ∧
    0x8FF5#16 &&& 0xF00F#16 = 0x8005#16 ∧ 0x8FF6#16 &&& 0xF00F#16 = 0x8006#16 ∧
    0x8FF7#16 &&& 0xF00F#16 = 0x8007#16 ∧ 0x8FFE#16 &&& 0xF00F#16 = 0x800E#16 ∧
    0x9FF0#16 &&& 0xF00F#16 = 0x9000#16 ∧ 0xAFFF#16 &&& 0xF000#16 = 0xA000#16 ∧
    0xBFFF#16 &&& 0xF000#16 = 0xB000#16 ∧ 0xCFFF#16 &&& 0xF000#16 = 0xC000#16 ∧
    0xDFFF#16 &&& 0xF000#16 = 0xD000#16 ∧ 0xEF9E#16 &&& 0xF0FF#16 = 0xE09E#16 ∧
    0xEFA1#16 &&& 0xF0FF#16 = 0xE0A1#16 ∧ 0xFF07#16 &&& 0xF0FF#16 = 0xF007#16 ∧
    0xFF0A#16 &&& 0xF0FF#16 = 0xF00A#16 ∧ 0xFF15#16 &&& 0xF0FF#16 = 0xF015#16 ∧
    0xFF18#16 &&& 0xF0FF#16 = 0xF018#16 ∧ 0xFF1E#16 &&& 0xF0FF#16 = 0xF01E#16 ∧
    0xFF29#16 &&& 0xF0FF#16 = 0xF029#16 ∧ 0xFF33#16 &&& 0xF0FF#16 = 0xF033#16 ∧
    0xFF55#16 &&& 0xF0FF#16 = 0xF055#16 ∧ 0xFF65#16 &&& 0xF0FF#16 = 0xF065#16 := by decide
theorem witness_NoWordFitsTwoTableRows : Instr.row .cls ∈ opcodeTable ∧ (Instr.row .cls).fits 0x00E0#16 = true := by decide
/-- The three clauses: a decoded word at the highest address a fetch can read, an invalid word, a failed fetch. -/
theorem witness_StepRunsTheDecodedInstruction :
    (inRange 0xFFE 2 = true ∧ decode ((0x60 : Byte) ++ (0x01 : Byte)) = some (.ldImm 0 1)) ∧
    (inRange (State.reset).pc.toNat 2 = true ∧
      decode (State.reset.mem.get 0x200 ++ State.reset.mem.get 0x201) = none) ∧
    inRange ({ State.reset with pc := 0xFFF } : State).pc.toNat 2 = false := by decide
theorem witness_PlacedWordIsExecuted : State.reset.mem.wf = true ∧ decodeTableWord 16 (0x6001#16).toNat = some (.ldImm 0 1) ∧
    inRange State.reset.pc.toNat 2 = true := by decide
/-- Every disjunct of the list happens, at the boundary of its condition. -/
theorem witness_ExecuteFaultsExactlyAsListed :
    faultShown (exec .ret State.reset) = some (.stackUnderflow 0x1FE) ∧
    faultShown (exec (.call 0) { State.reset with sp := 16 }) = some (.stackOverflow 0x1FE) ∧
    faultShown (exec (.drw 0 0 0) { State.reset with i := 0x1000 }) = some (.memRange 0x1FE 0x1000 0) ∧
    faultShown (exec (.ldB 0) { State.reset with i := 0xFFE }) = some (.memRange 0x1FE 0xFFE 3) ∧
    faultShown (exec (.storeRegs 15) { State.reset with i := 0xFF1 }) = some (.memRange 0x1FE 0xFF1 16) ∧
    faultShown (exec (.loadRegs 0) { State.reset with i := 0x1000 }) = some (.memRange 0x1FE 0x1000 1) ∧
    faultShown (exec (.skp 0) { State.reset with v := regs [(0, 16)] }) = some (.keyRange 0x1FE 16) ∧
    faultShown (exec (.sknp 0) { State.reset with v := regs [(0, 16)] }) = some (.keyRange 0x1FE 16) := by decide
/-- A step's error after a good fetch, one of a failed fetch, and an error of another operation. -/
theorem witness_ErrorsLeaveOnlyTheFetchAdvance :
    (hostOp (.step 0) State.reset).1 = .stepError (.invalidOpcode 0x200 0) ∧ inRange State.reset.pc.toNat 2 = true ∧
    (hostOp (.step 0) { State.reset with pc := 0xFFF }).1 = .stepError (.memRange 0xFFF 0xFFF 2) ∧
    inRange ({ State.reset with pc := 0xFFF } : State).pc.toNat 2 = false ∧
    (hostOp (.readByte 0x1000) State.reset).1 = .error (.memRange 0x1000 1) := by decide
theorem witness_ShiftsMoveTheSourceByOne :
    (0x80 : Byte) = (if (start 0 [(1, 5), (2, 0x80)]).quirk = true then (start 0 [(1, 5), (2, 0x80)]).reg 1
      else (start 0 [(1, 5), (2, 0x80)]).reg 2) := by decide
theorem witness_RandomMasksTheSuppliedByte :
    ({ State.reset with rndIn := [0xA5] } : State).rndIn = [0xA5] ∧ State.reset.rndIn = [] := by decide
theorem witness_RandomStepMasksTheHostsByte : inRange (start 0xC30F []).pc.toNat 2 = true ∧
    decode ((start 0xC30F []).mem.get 0x200 ++ (start 0xC30F []).mem.get 0x201) = some (.rnd 3 0x0F) := by decide
theorem witness_CallPushesTheReturnAddress :
    ({ State.reset with sp := 15 } : State).sp.val < 16 ∧ ({ State.reset with sp := 16 } : State).sp.val = 16 := by decide
theorem witness_ReturnPopsTheReturnAddress :
    0 < ({ State.reset with sp := 1 } : State).sp.val ∧ State.reset.sp.val = 0 := by decide
theorem witness_JumpOffsetAddsTheQuirkRegister : State.reset.quirk = false ∧
    ({ State.reset with quirk := true } : State).quirk = true ∧ ((15 : Reg).val = (0xFFF : Addr12).toNat / 256) := by decide
/-- Sixteen calls fit from the empty stack. -/
theorem witness_NestedCallsReturnInOrder : State.reset.sp.val + (List.replicate 16 (0x206 : Addr12)).length ≤ 16 := by decide
/-- Blocks that end at 0xFFF, and blocks one byte further. -/
theorem witness_BcdStoresThreeDigits : State.reset.mem.wf = true ∧ ((0xFFD : Word).toNat < 4096 ∧ (0xFFD : Word).toNat + 3 ≤ 4096) ∧
    ¬ ((0xFFE : Word).toNat < 4096 ∧ (0xFFE : Word).toNat + 3 ≤ 4096) := by decide
theorem witness_StoreRegistersAtIndex : State.reset.mem.wf = true ∧
    ((0xFF0 : Word).toNat < 4096 ∧ (0xFF0 : Word).toNat + ((15 : Reg).val + 1) ≤ 4096) ∧
    ¬ ((0xFF1 : Word).toNat < 4096 ∧ (0xFF1 : Word).toNat + ((15 : Reg).val + 1) ≤ 4096) := by decide
theorem witness_LoadRegistersFromIndex :
    ((0xFFF : Word).toNat < 4096 ∧ (0xFFF : Word).toNat + ((0 : Reg).val + 1) ≤ 4096) ∧
    ¬ ((0x1000 : Word).toNat < 4096 ∧ (0x1000 : Word).toNat + ((0 : Reg).val + 1) ≤ 4096) := by decide
theorem witness_StoreThenLoadRestoresRegisters : ∃ t, State.reset.mem.wf = true ∧ exec (.storeRegs 15) State.reset = .next t :=
  ⟨_, rfl, rfl⟩
theorem witness_StoredWordIsTheNextFetched : ∃ t, State.reset.mem.wf = true ∧ 1 ≤ (1 : Reg).val ∧
    exec (.storeRegs 1) { State.reset with i := 0x200 } = .next t := ⟨_, rfl, by decide, rfl⟩
/-- A sprite at 0xFFF of one row is in range and of two rows is not; one meets a set pixel and one does not. -/
theorem witness_DrawXorsTheSprite :
    ((0xFFF : Word).toNat < 4096 ∧ (0xFFF : Word).toNat + 1 ≤ 4096) ∧ ¬ ((0xFFF : Word).toNat < 4096 ∧ (0xFFF : Word).toNat + 2 ≤ 4096) ∧
    spriteBit (withBytes 0 [0x80] State.reset) 0 0 1 0 0 = true ∧ (pixels [(0, 0)]).pixel 0 0 = true ∧
    State.reset.disp.pixel 0 0 = false ∧ onDisplay (Display.blank small) 9 2 ∧ ¬ onDisplay (Display.blank small) 10 2 := by
  unfold onDisplay
  decide
theorem witness_DrawTwiceRestoresTheDisplay : ∃ t, exec (.drw 0 1 1) (withBytes 0 [0x80] State.reset) = .next t ∧
    t.reg 0 = 0 ∧ t.reg 1 = 0 ∧ t.disp.pixel 0 0 = true := ⟨_, rfl, by decide, by decide, by decide⟩
theorem witness_DrawStaysInsideItsBox : ∃ t, exec (.drw 0 1 1) (withBytes 0 [0x80] State.reset) = .next t ∧
    t.disp.pixel 0 0 ≠ State.reset.disp.pixel 0 0 := ⟨_, rfl, by decide⟩
theorem witness_KeySkipsReadTheHeldFlag : ((start 0 [(5, 15)]).reg 5).toNat = (15 : Fin 16).val ∧ 15 < ((start 0 [(5, 16)]).reg 5).toNat := by
  decide
theorem witness_KeyWaitTakesTheLeastRelease :
    ((State.reset.released.set 3 true).get 3 = true ∧ ∀ j : Fin 16, j < 3 → (State.reset.released.set 3 true).get j = false) ∧
    ∀ k : Fin 16, State.reset.released.get k = false := by decide
theorem witness_WaitingStepChangesNothing : waiting (start 0xF30A []) = true := by decide
theorem witness_IdleLoopNeverChangesTheState : idle (start 0x1200 []) = true := by decide
theorem witness_OnlyNamedRegistersAreWritten : ∃ t, exec (.addReg 1 2) State.reset = .next t ∧ mayWrite (.addReg 1 2) 3 = false :=
  ⟨_, rfl, by decide⟩
/-- Every clause with a premise: the instructions that do change each piece of state. -/
theorem witness_OtherStateIsWrittenOnlyAsListed :
    shown (exec (.ldDTVx 3) (start 0 [(3, 7)])) (fun t => t.dt) = some 7 ∧
    shown (exec (.ldSTVx 3) (start 0 [(3, 7)])) (fun t => t.st) = some 7 ∧
    shown (exec .cls { State.reset with disp := pixels [(0, 0)] }) (fun t => t.disp.pixel 0 0) = some false ∧
    shown (exec (.call 0x300) State.reset) (fun t => (t.stack.get 0, t.sp, t.pc)) = some (0x200, 1, 0x300) ∧
    shown (exec (.ldI 0x300) State.reset) (fun t => t.i) = some 0x300 ∧
    shown (exec (.rnd 0 0) { State.reset with rndIn := [1] }) (fun t => t.rndIn) = some [] := by decide
theorem witness_OnlyTheStoredBytesChange : ∃ t, State.reset.mem.wf = true ∧ exec (.ldB 0) { State.reset with i := 0xFFD } = .next t ∧
    0 < (stored (.ldB 0) State.reset).length ∧ stored .cls State.reset = [] := ⟨_, rfl, rfl, by decide, rfl⟩
theorem witness_StepKeepsTheInvariant : ∃ t, Invariant (start 0x1200 []) ∧ step (start 0x1200 []) = .next t :=
  ⟨_, ⟨by decide, by decide, by unfold stackBounded; decide⟩, rfl⟩
theorem witness_HostRunsKeepTheInvariant : Invariant State.reset := ⟨by decide, by decide, by unfold stackBounded; decide⟩
theorem witness_SoundTimerIsInvisible : (∃ t, step (start 0x6001 []) = .next t) ∧ ∃ f, step State.reset = .fault f :=
  ⟨⟨_, rfl⟩, ⟨_, rfl⟩⟩
theorem witness_OnlyRandomReadsTheRandomSource : shown (step (start 0x6001 [])) (fun t => t.reg 0) = some 1 ∧
    faultShown (step State.reset) = some (.invalidOpcode 0x200 0) ∧ (start 0x6001 []).wordAtPC = 0x6001#16 ∧ decode 0x6001#16 = some (.ldImm 0 1) ∧
    State.reset.wordAtPC = 0x0000#16 ∧ decode 0x0000#16 = none := by decide
theorem witness_OnlyKeyInstructionsReadTheKeypad : ∃ t, exec .cls State.reset = .next t ∧
    (∀ x, Instr.cls ≠ .skp x ∧ Instr.cls ≠ .sknp x) ∧ ∀ x, Instr.cls ≠ .ldVxK x := ⟨_, rfl, by decide, by decide⟩
theorem witness_OnlyFiveInstructionsReadQuirk : ∃ t, exec .cls State.reset = .next t ∧
    (∀ x y, Instr.cls ≠ .shr x y ∧ Instr.cls ≠ .shl x y) ∧ (∀ nnn, Instr.cls ≠ .jpV0 nnn) ∧
    ∀ x, Instr.cls ≠ .storeRegs x ∧ Instr.cls ≠ .loadRegs x :=
  ⟨_, rfl, by decide, fun _ h => Instr.noConfusion h, by decide⟩
/-- One entry in use, the stale ones different: a return runs. -/
theorem witness_StaleStackEntriesAreInvisible :
    (∀ k : Fin 16, k.val < 1 → ((Vector.replicate 16 (0x444 : Word)).set 0 0x206).get k = ((Vector.replicate 16 (0 : Word)).set 0 0x206).get k) ∧
    shown (step { start 0x00EE [] with sp := 1, stack := (Vector.replicate 16 0).set 0 0x206 }) (fun t => t.pc) = some 0x206 ∧
    faultShown (step (start 0x00EE [])) = some (.stackUnderflow 0x200) := by decide
theorem witness_CanonicalMemoriesAreDeterminedByReads : Memory.wf [(0, 5), (4095, 1)] = true := by decide
theorem witness_ConstructAndResetZeroTheState : construct small true = construct small true ∧
    (hostOp .reset State.reset).2 = (hostOp .reset State.reset).2 := ⟨rfl, rfl⟩
/-- A program that ends at 0xFFF, one byte more, and no byte at the end of memory. -/
theorem witness_LoadedProgramReadsBack : State.reset.mem.wf = true ∧ (0xFFE < 4096 ∧ 0xFFE + [(1 : Byte), 2].length ≤ 4096) ∧
    ¬ (0xFFF < 4096 ∧ 0xFFF + [(1 : Byte), 2].length ≤ 4096) ∧ ¬ (4096 < 4096 ∧ 4096 + ([] : List Byte).length ≤ 4096) := by decide
theorem witness_ByteOperationsReadAndWriteOneByte : State.reset.mem.wf = true ∧ 0xFFF < 4096 ∧ ¬ 0x1000 < 4096 := by decide
theorem witness_BlockWritesCheckTheirLength : (List.replicate 4096 (0 : Byte)).length = 4096 ∧ (List.replicate 4095 (0 : Byte)).length ≠ 4096 ∧
    State.reset.mem.wf = true ∧ ([1, 2] : List Byte).length = 2 ∧ (0xFFE < 4096 ∧ 0xFFE + 2 ≤ 4096) ∧
    ([1, 2, 3] : List Byte).length ≠ 2 ∧ ¬ (0xFFF < 4096 ∧ 0xFFF + 2 ≤ 4096) := by
  simp only [List.length_replicate]
  decide
/-- A slice that ends at 0xFFF, one byte more, and the empty slice at 4096. -/
theorem witness_ReadSliceGivesTheBytesOfMemory : (0xFFE < 4096 ∧ 0xFFE + 2 ≤ 4096) ∧ ¬ (0xFFE < 4096 ∧ 0xFFE + 3 ≤ 4096) ∧
    ¬ (4096 < 4096 ∧ 4096 + 0 ≤ 4096) := by decide

end Sys2Proof.Tests
end

section
/-!
PROOFS. What an instruction can do, said once: `Effect` lists the shapes of the state an instruction leaves, and
`exec_effect` says there are no others. The frame statements and the invariant are case analyses over it.
-/

namespace Sys2Proof.Machine

/-- The skips: the instructions that may advance PC by one more word (R128). -/
def IsSkip (i : Instr) : Prop :=
  (∃ x nn, i = .seImm x nn ∨ i = .sneImm x nn) ∨ (∃ x y, i = .seReg x y ∨ i = .sneReg x y) ∨
    ∃ x, i = .skp x ∨ i = .sknp x

/-- `Effect s i t`: `t` has a shape the instruction `i` can give the state `s` it runs on. Every piece of state besides V and
memory is written by the constructors that name its writers only; a value no frame depends on is left open. -/
inductive Effect (s : State) : Instr → State → Prop
  /-- Registers only. -/
  | regs (i : Instr) (v : Vector Byte 16) : Effect s i { s with v := v }
  | cls (d : Raster s.disp.size.w s.disp.size.h) : Effect s .cls (s.setDisp d)
  | drw (x y : Reg) (n : Nat) (d : Raster s.disp.size.w s.disp.size.h) (v : Vector Byte 16) :
      Effect s (.drw x y n) { s.setDisp d with v := v }
  | ret {k : Nat} (hk : k < 16) (hs : s.sp.val = k + 1) :
      Effect s .ret { s with sp := ⟨k, Nat.lt_of_lt_of_le hk (by decide)⟩, pc := s.stack[k] }
  | call (nnn : Addr12) (h : s.sp.val < 16) :
      Effect s (.call nnn) { s with stack := s.stack.set s.sp.val s.pc h,
                                    sp := ⟨s.sp.val + 1, Nat.succ_lt_succ h⟩, pc := addrOf nnn }
  | jp (nnn : Addr12) : Effect s (.jp nnn) (s.setPC (addrOf nnn))
  | jpV0 (nnn : Addr12) : Effect s (.jpV0 nnn) (s.setPC (s.jumpTarget nnn))
  | skip {i : Instr} (hi : IsSkip i) (c : Bool) : Effect s i (s.skipIf c)
  /-- FX0A with no key released. -/
  | wait (x : Reg) : Effect s (.ldVxK x) s.rewind
  | ldI (nnn : Addr12) (a : Word) : Effect s (.ldI nnn) (s.setI a)
  | ldF (x : Reg) (a : Word) : Effect s (.ldF x) (s.setI a)
  | addI (x : Reg) (a : Word) (v : Vector Byte 16) : Effect s (.addI x) { s with i := a, v := v }
  | ldDTVx (x : Reg) (b : Byte) : Effect s (.ldDTVx x) (s.setDT b)
  | ldSTVx (x : Reg) (b : Byte) : Effect s (.ldSTVx x) (s.setST b)
  | ldB (x : Reg) {bs : List Byte} (h : inRange s.i.toNat bs.length = true) :
      Effect s (.ldB x) { s with mem := s.mem.setBytes s.i.toNat bs }
  | storeRegs (x : Reg) {bs : List Byte} (h : inRange s.i.toNat bs.length = true) :
      Effect s (.storeRegs x) (State.advanceI { s with mem := s.mem.setBytes s.i.toNat bs } x)
  | loadRegs (x : Reg) (v : Vector Byte 16) : Effect s (.loadRegs x) (State.advanceI { s with v := v } x)
  | rnd (x : Reg) (nn : Byte) (v : Vector Byte 16) : Effect s (.rnd x nn) { s.rndDrawn with v := v }

/-- Whatever an instruction answers, it has one of the shapes of `Effect`. -/
theorem exec_effect {i : Instr} {s t : State} (h : exec i s = .next t) : Effect s i t := by
  cases i with
  | cls => cases h; exact .cls _
  | drw x y n =>
    obtain ⟨-, p, -, rfl⟩ := exec_drw_next h
    exact .drw x y n p.disp _
  | ret =>
    obtain ⟨k, hk, hs, rfl⟩ := exec_ret_next h
    exact .ret hk hs
  | call nnn =>
    obtain ⟨hs, rfl⟩ := exec_call_next h
    exact .call nnn hs
  | jp nnn => cases h; exact .jp nnn
  | jpV0 nnn => cases h; exact .jpV0 nnn
  | seImm x nn => cases h; exact .skip (.inl ⟨x, nn, .inl rfl⟩) _
  | sneImm x nn => cases h; exact .skip (.inl ⟨x, nn, .inr rfl⟩) _
  | seReg x y => cases h; exact .skip (.inr (.inl ⟨x, y, .inl rfl⟩)) _
  | sneReg x y => cases h; exact .skip (.inr (.inl ⟨x, y, .inr rfl⟩)) _
  | skp x =>
    obtain ⟨k, -, rfl⟩ := exec_skp_next h
    exact .skip (.inr (.inr ⟨x, .inl rfl⟩)) _
  | sknp x =>
    obtain ⟨k, -, rfl⟩ := exec_sknp_next h
    exact .skip (.inr (.inr ⟨x, .inr rfl⟩)) _
  | ldVxK x =>
    obtain ⟨k, -, rfl⟩ | ⟨-, rfl⟩ := exec_ldVxK_next h
    · exact .regs _ _
    · exact .wait x
  | ldI nnn => cases h; exact .ldI nnn _
  | ldF x => cases h; exact .ldF x _
  | addI x => cases h; exact .addI x _ _
  | ldDTVx x => cases h; exact .ldDTVx x _
  | ldSTVx x => cases h; exact .ldSTVx x _
  | ldB x =>
    obtain ⟨hr, rfl⟩ := exec_ldB_next h
    exact .ldB x hr
  | storeRegs x =>
    obtain ⟨hr, rfl⟩ := exec_storeRegs_next h
    exact .storeRegs x (by rwa [regs_take_length])
  | loadRegs x =>
    obtain ⟨-, rfl⟩ := exec_loadRegs_next h
    exact .loadRegs x _
  | rnd x nn => cases h; exact .rnd x nn _
  | ldImm | addImm | ldReg | orReg | andReg | xorReg | addReg | subReg | shr | subnReg | shl | ldVxDT =>
    cases h
    exact .regs _ _

/-- No instruction changes the display's size (R6). -/
theorem exec_size {i : Instr} {s t : State} (h : exec i s = .next t) : t.disp.size = s.disp.size := by
  cases exec_effect h <;> simp

/-- Settles O41: each shape of `Effect` leaves every piece of state alone that its instruction is not named for. -/
theorem otherStateIsWrittenOnlyAsListed : Obligations.OtherStateIsWrittenOnlyAsListed := by
  intro i s t h
  cases exec_effect h with
  | skip hi c => obtain ⟨x, nn, rfl | rfl⟩ | ⟨x, y, rfl | rfl⟩ | ⟨x, rfl | rfl⟩ := hi <;> simp
  | storeRegs | loadRegs => simp +contextual
  | _ => simp

/-! ## The invariant, along every run of host operations -/

/-- PC just after a fetch: it has advanced and has not passed the end of memory (R81). -/
theorem advance_pc_bounds {s : State} (hr : inRange s.pc.toNat 2 = true) :
    2 ≤ s.advance.pc.toNat ∧ s.advance.pc.toNat ≤ returnLimit := by
  obtain ⟨-, hle⟩ := (inRange_iff _ _).1 hr
  simp only [Config.memSize] at hle
  simp only [State.advance_pc, BitVec.toNat_add, BitVec.toNat_ofNat, returnLimit]
  omega

theorem addrOf_toNat_le (nnn : Addr12) : (addrOf nnn).toNat ≤ 0xFFF := by
  have := nnn.isLt
  simp only [addrOf, BitVec.toNat_setWidth]
  omega

/-- BNNN reaches at most 0xFFF + 0xFF (R127). -/
theorem jumpTarget_toNat_le (s : State) (nnn : Addr12) : (s.jumpTarget nnn).toNat ≤ pcLimit := by
  have ha := addrOf_toNat_le nnn
  have ho := (s.jumpOffset nnn).isLt
  simp only [State.jumpTarget, BitVec.toNat_add, BitVec.toNat_setWidth, pcLimit]
  omega

/-- A skip adds 2 at most to PC after a fetch (R128). -/
theorem skipIf_pc_le (s : State) (c : Bool) (h : s.pc.toNat ≤ returnLimit) : (s.skipIf c).pc.toNat ≤ pcLimit := by
  simp only [returnLimit, pcLimit] at *
  cases c
  · exact Nat.le_trans h (by decide)
  · simp only [State.skipIf_pc, if_true, BitVec.toNat_add, BitVec.toNat_ofNat]
    omega

/-- After a fetch PC goes back without passing below 0 (R193). -/
theorem rewind_pc_le {s : State} (hlo : 2 ≤ s.pc.toNat) (h : s.pc.toNat ≤ pcLimit) : s.rewind.pc.toNat ≤ pcLimit := by
  simp only [State.rewind_pc, pcLimit, BitVec.toNat_sub, BitVec.toNat_ofNat] at *
  omega

/-- An entry of a vector after a write, indexed by `Fin` as the model's vectors are. -/
theorem vector_get_set {α : Type} {n : Nat} (v : Vector α n) (k j : Fin n) (a : α) :
    (v.set k a).get j = if j = k then a else v.get j := by
  simp only [Vector.get_eq_getElem, Vector.getElem_set, Fin.ext_iff, eq_comm]

/-- A bounded value written to one stack entry keeps the stack bounded. -/
theorem stack_set_bounded {s : State} (hb : stackBounded s) (n : Fin 16) {a : Word}
    (ha : a.toNat ≤ returnLimit) (k : Fin 16) : ((s.stack.set n a).get k).toNat ≤ returnLimit := by
  rw [vector_get_set]
  split
  · exact ha
  · exact hb k

/-- The invariant speaks of memory, PC and the stack only. -/
theorem Invariant.congr {s t : State} (hi : Invariant s) (hm : t.mem = s.mem) (hp : t.pc = s.pc)
    (hs : t.stack = s.stack) : Invariant t :=
  ⟨hm ▸ hi.memWf, hp ▸ hi.pcBound, fun k => hs ▸ hi.stackBound k⟩

/-- A block store inside memory keeps the invariant (R54). -/
theorem setBytes_invariant {s : State} (hi : Invariant s) {a : Nat} {bs : List Byte}
    (hr : inRange a bs.length = true) : Invariant { s with mem := s.mem.setBytes a bs } :=
  ⟨Memory.wf_setBytes bs hi.memWf ((inRange_iff _ _).1 hr).2, hi.pcBound, hi.stackBound⟩

/-- An instruction that runs just after a fetch leaves a state of the invariant. -/
theorem exec_invariant {i : Instr} {s t : State} (hi : Invariant s) (hlo : 2 ≤ s.pc.toNat)
    (hhi : s.pc.toNat ≤ returnLimit) (h : exec i s = .next t) : Invariant t := by
  have ⟨hm, hpc, hb⟩ := hi
  cases exec_effect h with
  | regs | cls | drw | ldI | ldF | addI | ldDTVx | ldSTVx => exact hi.congr rfl rfl rfl
  | ret hk hs => exact ⟨hm, Nat.le_trans (hb ⟨_, hk⟩) (by decide), hb⟩
  | call nnn hs => exact ⟨hm, Nat.le_trans (addrOf_toNat_le nnn) (by decide), stack_set_bounded hb ⟨_, hs⟩ hhi⟩
  | jp nnn => exact ⟨hm, Nat.le_trans (addrOf_toNat_le nnn) (by decide), hb⟩
  | jpV0 nnn => exact ⟨hm, jumpTarget_toNat_le s nnn, hb⟩
  | skip hi' c => exact ⟨by simpa using hm, skipIf_pc_le s c hhi, by simpa [stackBounded] using hb⟩
  | wait x => exact ⟨hm, rewind_pc_le hlo hpc, hb⟩
  | ldB x hr => exact setBytes_invariant hi hr
  | storeRegs x hr => exact (setBytes_invariant hi hr).congr (by simp) (by simp) (by simp)
  | loadRegs | rnd => exact hi.congr (by simp) (by simp) (by simp)

/-- The fetch's advance keeps the invariant. -/
theorem advance_invariant {s : State} (hi : Invariant s) (hr : inRange s.pc.toNat 2 = true) : Invariant s.advance :=
  ⟨hi.memWf, Nat.le_trans (advance_pc_bounds hr).2 (by decide), hi.stackBound⟩

/-- A step that succeeds keeps the invariant. -/
theorem step_invariant {s t : State} (hi : Invariant s) (h : step s = .next t) : Invariant t := by
  obtain ⟨i, hr, -, hx⟩ := step_next h
  obtain ⟨hlo, hhi⟩ := advance_pc_bounds hr
  exact exec_invariant (advance_invariant hi hr) hlo hhi hx

/-- What a step leaves, whatever it answers: nothing has happened, or the fetch's advance, or the next state (R212). -/
theorem stepLeft_cases (s : State) :
    stepLeft s = s ∨ (inRange s.pc.toNat 2 = true ∧ stepLeft s = s.advance) ∨ step s = .next (stepLeft s) := by
  unfold stepLeft
  split
  · exact .inl rfl
  · rename_i hf
    obtain ⟨hr, -, rfl⟩ := fetch_ok.1 hf
    cases hs : step s with
    | next t => exact .inr (.inr rfl)
    | fault f => exact .inr (.inl ⟨hr, rfl⟩)
    | refused r => exact .inr (.inl ⟨hr, rfl⟩)

/-- A step keeps the invariant, whether or not it reports an error. -/
theorem stepLeft_invariant {s : State} (hi : Invariant s) : Invariant (stepLeft s) := by
  obtain h | ⟨hr, h⟩ | h := stepLeft_cases s
  · rwa [h]
  · rw [h]
    exact advance_invariant hi hr
  · exact step_invariant hi h

/-- No step changes the display's size, whether or not it reports an error (R6). -/
theorem stepLeft_size (s : State) : (stepLeft s).disp.size = s.disp.size := by
  obtain h | ⟨-, h⟩ | h := stepLeft_cases s
  · rw [h]
  · rw [h, State.advance_disp]
  · obtain ⟨i, -, -, hx⟩ := step_next h
    exact exec_size (s := s.advance) hx

/-- The state a step leaves is the next state, when there is one. -/
theorem stepLeft_of_next {s t : State} (h : step s = .next t) : stepLeft s = t := by
  obtain ⟨i, hr, -, -⟩ := step_next h
  have hf : fetch s = .ok (s.wordAtPC, s.advance) := fetch_ok.2 ⟨hr, rfl, rfl⟩
  simp only [stepLeft, hf, h, stateLeft]

/-- The operation Step(RND) leaves the state of `stepWithLeft`, or, were the step refused, the old one. -/
theorem hostOp_step_state (b : Byte) (s : State) :
    (hostOp (.step b) s).2 = stepWithLeft b s ∨ (hostOp (.step b) s).2 = s := by
  cases h : step (s.withRnd b) with
  | next t => exact .inl (by simp [hostOp, stepWith, stepWithLeft, h, stepLeft_of_next h])
  | fault f => exact .inl (by simp [hostOp, stepWith, h])
  | refused r => exact .inr (by simp [hostOp, stepWith, h])

theorem stepWithLeft_invariant {s : State} (b : Byte) (hi : Invariant s) : Invariant (stepWithLeft b s) :=
  (stepLeft_invariant (s := s.withRnd b) (hi.congr rfl rfl rfl)).congr rfl rfl rfl

theorem stepWithLeft_size (b : Byte) (s : State) : (stepWithLeft b s).disp.size = s.disp.size :=
  stepLeft_size (s.withRnd b)

/-! ### The host's writes to memory -/

/-- The answer of a host write to memory: if it succeeds, nothing but memory has changed, and memory is still canonical. -/
def WritesMemory (s : State) (r : Except Error State) : Prop :=
  ∀ t, r = .ok t → ∃ m : Memory, t = { s with mem := m } ∧ (s.mem.wf = true → m.wf = true)

theorem memWrite_writesMemory (a : Nat) (bs : List Byte) (s : State) : WritesMemory s (memWrite a bs s) := by
  intro t h
  have hw := memWrite_wf h
  obtain ⟨-, rfl⟩ := memWrite_ok.1 h
  exact ⟨_, rfl, hw⟩

theorem writeSlice_writesMemory (a len : Nat) (data : List Byte) (s : State) :
    WritesMemory s (writeSlice a len data s) :=
  fun t h => memWrite_writesMemory a data s t (writeSlice_ok.1 h).2

theorem replaceMemory_writesMemory (img : List Byte) (s : State) : WritesMemory s (replaceMemory img s) := by
  intro t h
  unfold replaceMemory at h
  split at h
  · rename_i hlen
    cases h
    exact ⟨_, rfl, fun _ => Memory.wf_setBytes img rfl (by omega)⟩
  · cases h

theorem replyWrite_invariant {s : State} {r : Except Error State} (hw : WritesMemory s r) (hi : Invariant s) :
    Invariant (replyWrite s r).2 := by
  cases r with
  | error e => exact hi
  | ok t =>
    obtain ⟨m, rfl, hm⟩ := hw _ rfl
    exact ⟨hm hi.memWf, hi.pcBound, hi.stackBound⟩

theorem replyWrite_size {s : State} {r : Except Error State} (hw : WritesMemory s r) :
    (replyWrite s r).2.disp.size = s.disp.size := by
  cases r with
  | error e => rfl
  | ok t =>
    obtain ⟨m, rfl, -⟩ := hw _ rfl
    rfl

/-! ### Operations that only read -/

@[simp] theorem hostOp_readByte_state (a : Nat) (s : State) : (hostOp (.readByte a) s).2 = s := by
  simp only [hostOp]
  split <;> rfl

@[simp] theorem hostOp_readSlice_state (a len : Nat) (s : State) : (hostOp (.readSlice a len) s).2 = s := by
  simp only [hostOp]
  split <;> rfl

/-! ### Reset -/

theorem reset_invariant : Invariant State.reset := ⟨rfl, by decide, by unfold stackBounded; decide⟩

/-- Settles O44: Construct differs from the reset state in the display and QUIRK only. -/
theorem resetMeetsTheInvariant : Obligations.ResetMeetsTheInvariant :=
  ⟨reset_invariant, fun _ _ => reset_invariant.congr rfl rfl rfl⟩

/-! ### Every operation, every run -/

/-- Every host operation keeps the invariant, whatever its reply. -/
theorem hostOp_invariant (op : HostOp) {s : State} (hi : Invariant s) : Invariant (hostOp op s).2 := by
  cases op with
  | reset => exact reset_invariant.congr rfl rfl rfl
  | replaceMemory img => exact replyWrite_invariant (replaceMemory_writesMemory img s) hi
  | writeByte a b => exact replyWrite_invariant (memWrite_writesMemory a [b] s) hi
  | writeSlice a len data => exact replyWrite_invariant (writeSlice_writesMemory a len data s) hi
  | loadProgram offset bytes => exact replyWrite_invariant (writeSlice_writesMemory offset _ bytes s) hi
  | readByte | readSlice => simpa using hi
  | step b =>
    obtain h | h := hostOp_step_state b s <;> rw [h]
    · exact stepWithLeft_invariant b hi
    · exact hi
  | setHeld | setReleased | tickTimers | readDisplay | setQuirk => exact hi.congr rfl rfl rfl

/-- No host operation changes the display's size (R6). -/
theorem hostOp_size (op : HostOp) (s : State) : (hostOp op s).2.disp.size = s.disp.size := by
  cases op with
  | replaceMemory img => exact replyWrite_size (replaceMemory_writesMemory img s)
  | writeByte a b => exact replyWrite_size (memWrite_writesMemory a [b] s)
  | writeSlice a len data => exact replyWrite_size (writeSlice_writesMemory a len data s)
  | loadProgram offset bytes => exact replyWrite_size (writeSlice_writesMemory offset _ bytes s)
  | readByte | readSlice => simp
  | step b =>
    obtain h | h := hostOp_step_state b s <;> rw [h]
    exact stepWithLeft_size b s
  | reset | setHeld | setReleased | tickTimers | readDisplay | setQuirk => rfl

/-- What every host operation keeps, every run keeps, under either policy on errors. -/
theorem hostRun_keeps {P : State → Prop} (hop : ∀ op s, P s → P (hostOp op s).2) (policy : HostOnError)
    (ops : List HostOp) {s : State} (hs : P s) : P (hostRun policy ops s).2 := by
  induction ops generalizing s with
  | nil => exact hs
  | cons op ops ih =>
    simp only [hostRun]
    split
    · exact hop op s hs
    · exact ih (hop op s hs)

/-- Settles O45, by induction on the run: every operation keeps the invariant and the display's size. -/
theorem hostRunsKeepTheInvariant : Obligations.HostRunsKeepTheInvariant := fun policy ops s =>
  ⟨hostRun_keeps (fun op _ => hostOp_invariant op) policy ops,
   hostRun_keeps (P := fun t => t.disp.size = s.disp.size) (fun op t ht => (hostOp_size op t).trans ht) policy ops rfl⟩

end Sys2Proof.Machine
end

section
/-!
PROOFS. Drawing as XOR with a set of pixels: `Canvas.Xors p q bits` says that `q` is `p` with the pixels of `bits` flipped and
their collisions counted. It holds of one plotted bit, and composes over sets that do not overlap, so it holds of a row and of
a sprite.
-/

namespace Sys2Proof.Machine

section Drawing

variable {w h : Nat}

/-- `q` is `p` after flipping every pixel of `bits` once: a collision was seen before, or some set pixel meets a 1 (R101). -/
structure Canvas.Xors (p q : Canvas w h) (bits : Nat → Nat → Bool) : Prop where
  pixel : ∀ c r, c < w → r < h → q.disp.pixel c r = (p.disp.pixel c r ^^ bits c r)
  coll : q.coll = true ↔ p.coll = true ∨ ∃ c r, p.disp.pixel c r = true ∧ bits c r = true

/-- The set of pixels of one bit at column c and row r. -/
def bitAt (c r : Nat) (bit : Bool) (c' r' : Nat) : Bool := bit && decide (c' = c) && decide (r' = r)

/-- The set of pixels of the last `left` bits of a sprite row whose bit 7 stands at column c0. -/
def rowBits (c0 r : Nat) (row : Byte) (left c' r' : Nat) : Bool :=
  decide (c0 + 8 ≤ c' + left) && decide (c' < c0 + 8) && decide (r' = r) && row.getLsbD (c0 + 7 - c')

/-- The set of pixels of a sprite whose top left corner stands at column c0 and row r0. -/
def spriteBits (c0 r0 : Nat) (rows : List Byte) (c' r' : Nat) : Bool :=
  decide (c0 ≤ c') && decide (c' < c0 + 8) && decide (r0 ≤ r') && decide (r' < r0 + rows.length) &&
    ((rows[r' - r0]?).getD 0).getLsbD (c0 + 7 - c')

theorem bitAt_iff {c r : Nat} {bit : Bool} {c' r' : Nat} :
    bitAt c r bit c' r' = true ↔ bit = true ∧ c' = c ∧ r' = r := by
  simp [bitAt, and_assoc]

theorem rowBits_iff {c0 r : Nat} {row : Byte} {left c' r' : Nat} : rowBits c0 r row left c' r' = true ↔
    c0 + 8 ≤ c' + left ∧ c' < c0 + 8 ∧ r' = r ∧ row.getLsbD (c0 + 7 - c') = true := by
  simp [rowBits, and_assoc]

theorem spriteBits_iff {c0 r0 : Nat} {rows : List Byte} {c' r' : Nat} : spriteBits c0 r0 rows c' r' = true ↔
    c0 ≤ c' ∧ c' < c0 + 8 ∧ r0 ≤ r' ∧ r' < r0 + rows.length ∧
      ((rows[r' - r0]?).getD 0).getLsbD (c0 + 7 - c') = true := by
  simp [spriteBits, and_assoc]

/-- A set pixel is one inside the raster. -/
theorem Raster.lt_of_pixel {d : Raster w h} {c r : Nat} (hp : d.pixel c r = true) : c < w ∧ r < h := by
  by_contra hn
  have := d.pixel_outside (c := c) (r := r) (by omega)
  simp [this] at hp

theorem Canvas.Xors.refl (p : Canvas w h) {bits : Nat → Nat → Bool} (hb : ∀ c r, bits c r = false) : p.Xors p bits where
  pixel := by simp [hb]
  coll := by simp [hb]

/-- Two sets of pixels that do not overlap, one after the other: the second meets only pixels the first has left alone. -/
theorem Canvas.Xors.trans {p q u : Canvas w h} {a b bits : Nat → Nat → Bool} (hpq : p.Xors q a) (hqu : q.Xors u b)
    (hab : ∀ c r, a c r = true → ¬ b c r = true) (hbits : ∀ c r, bits c r = (a c r || b c r)) : p.Xors u bits where
  pixel c r hc hr := by
    rw [hqu.pixel c r hc hr, hpq.pixel c r hc hr, hbits, Bool.xor_assoc]
    cases ha : a c r
    · simp
    · simp [Bool.eq_false_iff.2 (hab c r ha)]
  coll := by
    have hsame (c r : Nat) (hb : b c r = true) : q.disp.pixel c r = p.disp.pixel c r := by
      have ha : a c r = false := Bool.eq_false_iff.2 fun ha => hab c r ha hb
      by_cases ho : c < w ∧ r < h
      · rw [hpq.pixel c r ho.1 ho.2, ha, Bool.xor_false]
      · rw [Raster.pixel_outside _ (by omega), Raster.pixel_outside _ (by omega)]
    have hmeet : (∃ c r, q.disp.pixel c r = true ∧ b c r = true) ↔ ∃ c r, p.disp.pixel c r = true ∧ b c r = true :=
      exists₂_congr fun c r => and_congr_left fun hb => by rw [hsame c r hb]
    simp only [hqu.coll, hpq.coll, hmeet, hbits, Bool.or_eq_true, and_or_left, exists_or, or_assoc]

theorem Canvas.plot_xors (p : Canvas w h) (c r : Nat) (bit : Bool) : p.Xors (p.plot c r bit) (bitAt c r bit) where
  pixel c' r' hc hr := by rw [Canvas.plot_pixel p c r bit hc hr, bitAt]
  coll := by
    rw [Canvas.plot_coll]
    cases bit <;> simp [bitAt]

/-- The bits of a row still to draw are the next one and those after it. -/
theorem rowBits_succ (c0 r : Nat) (row : Byte) {left : Nat} (hl : left < 8) (c' r' : Nat) :
    rowBits c0 r row (left + 1) c' r' =
      (bitAt (c0 + (7 - left)) r (row.getLsbD left) c' r' || rowBits c0 r row left c' r') := by
  by_cases hc : c' = c0 + (7 - left)
  · have hi : c0 + 7 - c' = left := by omega
    have h1 : c0 + 8 ≤ c' + (left + 1) := by omega
    have h2 : c' < c0 + 8 := by omega
    have h3 : ¬ c0 + 8 ≤ c' + left := by omega
    simp [rowBits, bitAt, hi, h1, h2, h3, ← hc, Bool.and_comm]
  · have hle : c0 + 8 ≤ c' + (left + 1) ↔ c0 + 8 ≤ c' + left := by omega
    simp [rowBits, bitAt, hc, hle]

theorem Canvas.plotRow_xors (p : Canvas w h) (c0 r : Nat) (row : Byte) {left : Nat} (hl : left ≤ 8) :
    p.Xors (p.plotRow c0 r row left) (rowBits c0 r row left) := by
  induction left generalizing p with
  | zero => exact .refl p fun c' r' => by simp [rowBits]
  | succ left ih =>
    refine (p.plot_xors _ r _).trans (ih _ (by omega)) (fun c' r' ha hb => ?_) (rowBits_succ c0 r row hl)
    obtain ⟨-, hc, -⟩ := bitAt_iff.1 ha
    obtain ⟨hc', -⟩ := rowBits_iff.1 hb
    omega

/-- The pixels of a sprite are those of its top row and those of the rows below. -/
theorem spriteBits_cons (c0 r0 : Nat) (row : Byte) (rows : List Byte) (c' r' : Nat) :
    spriteBits c0 r0 (row :: rows) c' r' = (rowBits c0 r0 row 8 c' r' || spriteBits c0 (r0 + 1) rows c' r') := by
  obtain hr | rfl | hr := Nat.lt_trichotomy r' r0
  · have h1 : ¬ r0 ≤ r' := by omega
    have h2 : ¬ r0 + 1 ≤ r' := by omega
    have h3 : ¬ r' = r0 := by omega
    simp [spriteBits, rowBits, h1, h2, h3]
  · simp [spriteBits, rowBits]
  · obtain ⟨k, rfl⟩ : ∃ k, r' = r0 + 1 + k := ⟨r' - (r0 + 1), by omega⟩
    have hk : r0 + 1 + k - r0 = k + 1 := by omega
    have hlen : r0 + 1 + k < r0 + (rows.length + 1) ↔ k < rows.length := by omega
    have h3 : ¬ r0 + 1 + k = r0 := by omega
    have h4 : r0 ≤ r0 + 1 + k := by omega
    simp [spriteBits, rowBits, hk, hlen, h3, h4]

theorem Canvas.plotRows_xors (p : Canvas w h) (c0 r0 : Nat) (rows : List Byte) :
    p.Xors (p.plotRows c0 r0 rows) (spriteBits c0 r0 rows) := by
  induction rows generalizing p r0 with
  | nil => exact .refl p fun c' r' => by simp [spriteBits]
  | cons row rows ih =>
    refine (p.plotRow_xors c0 r0 row (Nat.le_refl 8)).trans (ih _ _) (fun c' r' ha hb => ?_)
      (spriteBits_cons c0 r0 row rows)
    obtain ⟨-, -, hr, -⟩ := rowBits_iff.1 ha
    obtain ⟨-, -, hr', -⟩ := spriteBits_iff.1 hb
    omega

/-- Drawing flips the sprite's pixels, and collides exactly when one of them was set (R101). -/
theorem Raster.draw_xors (d : Raster w h) (c0 r0 : Nat) (rows : List Byte) :
    Canvas.Xors ⟨d, false⟩ (d.draw c0 r0 rows) (spriteBits c0 r0 rows) :=
  Canvas.plotRows_xors _ c0 r0 rows

end Drawing

/-- The sprite's bits as bytes of memory: `spriteBit` is the set of pixels of the rows DXYN reads. -/
theorem spriteBits_getBytes (s : State) (x y : Reg) (n c r : Nat) :
    spriteBits (s.startCol x) (s.startRow y) (s.mem.getBytes s.i.toNat n) c r = spriteBit s x y n c r := by
  by_cases hr : s.startRow y ≤ r ∧ r < s.startRow y + n
  · have hk : r - s.startRow y < (s.mem.getBytes s.i.toNat n).length := by simp; omega
    rw [spriteBits, spriteBit, Memory.getBytes_length, List.getElem?_eq_getElem hk, Option.getD_some,
      Memory.getBytes_getElem]
  · obtain ho | ho := not_and_or.1 hr <;> simp [spriteBits, spriteBit, ho]

/-! ## DXYN -/

theorem exec_drw_of_inRange (x y : Reg) {n : Nat} {s : State} (hr : inRange s.i.toNat n = true) :
    let p := s.disp.px.draw (s.startCol x) (s.startRow y) (s.mem.getBytes s.i.toNat n)
    exec (.drw x y n) s = .next ((s.setDisp p.disp).setFlag p.coll) := by
  simp only [exec, execDrw, State.dataAddr, memRead_ok.2 ⟨hr, rfl⟩]

theorem exec_drw_of_not_inRange (x y : Reg) {n : Nat} {s : State} (hr : inRange s.i.toNat n = false) :
    exec (.drw x y n) s = .fault (.memRange (s.pc - 2) s.i.toNat n) := by
  simp only [exec, execDrw, State.dataAddr, memRead_error.2 ⟨hr, rfl⟩]
  rfl

/-- Settles O32: the drawing is the XOR with the sprite, and VF its collision. -/
theorem drawXorsTheSprite : Obligations.DrawXorsTheSprite := by
  intro x y n s
  refine ⟨fun hr => ?_, fun hr => ?_⟩
  · obtain ⟨hpx, hcoll⟩ := s.disp.px.draw_xors (s.startCol x) (s.startRow y) (s.mem.getBytes s.i.toNat n)
    simp only [spriteBits_getBytes] at hpx hcoll
    refine ⟨_, exec_drw_of_inRange x y ((inRange_iff _ _).2 hr), rfl, fun r hne => ?_, rfl, fun c r ho => ?_, ?_, ?_⟩
    · simp [hne]
    · exact hpx c r ho.1 ho.2
    · rintro ⟨c, r, -, hset, hbit⟩
      simp [hcoll.2 (.inr ⟨c, r, hset, hbit⟩), flag]
    · intro hno
      have hnc : (s.disp.px.draw (s.startCol x) (s.startRow y) (s.mem.getBytes s.i.toNat n)).coll = false := by
        rw [← Bool.not_eq_true, hcoll]
        rintro (h | ⟨c, r, hset, hbit⟩)
        · exact Bool.noConfusion h
        · rw [hno c r (Raster.lt_of_pixel hset) hset] at hbit
          exact Bool.noConfusion hbit
      simp [hnc, flag]
  · have hf := exec_drw_of_not_inRange x y (n := n) (s := s) (Bool.eq_false_iff.2 fun h => hr ((inRange_iff _ _).1 h))
    exact ⟨hf, by rw [hf]; rfl⟩

end Sys2Proof.Machine
end

section
/-!
PROOFS. What only some instructions read: QUIRK and the random source. `State.withEnv` puts other values there, and
`exec_withEnv` says that an instruction which reads neither does the same with them.
-/

namespace Sys2Proof.Machine

/-- The state with another QUIRK and another random source. -/
def State.withEnv (s : State) (q : Bool) (bs : List Byte) (k : Nat) : State :=
  { s with quirk := q, rndIn := bs, rndCount := k }

/-- A result with its next state, if it has one, changed. -/
def mapNext (u : State → State) : Result → Result
  | .next t => .next (u t)
  | .fault f => .fault f
  | .refused r => .refused r

/-- The instructions that read QUIRK (R2, R8). -/
def ReadsQuirk (i : Instr) : Prop :=
  (∃ x y, i = .shr x y ∨ i = .shl x y) ∨ (∃ nnn, i = .jpV0 nnn) ∨ ∃ x, i = .storeRegs x ∨ i = .loadRegs x

section WithEnv

variable (s : State) (q : Bool) (bs : List Byte) (k : Nat)

/-! What an instruction reads, apart from QUIRK and the random source, is the same. -/

@[simp] theorem withEnv_pc : (s.withEnv q bs k).pc = s.pc := rfl
@[simp] theorem withEnv_dataAddr : (s.withEnv q bs k).dataAddr = s.dataAddr := rfl
@[simp] theorem withEnv_reg (r : Reg) : (s.withEnv q bs k).reg r = s.reg r := rfl
@[simp] theorem withEnv_regs : (s.withEnv q bs k).regs = s.regs := rfl
@[simp] theorem withEnv_leastReleased : (s.withEnv q bs k).leastReleased = s.leastReleased := rfl
@[simp] theorem memRead_withEnv (a n : Nat) : memRead a n (s.withEnv q bs k) = memRead a n s := rfl
@[simp] theorem keyOf_withEnv (x : Reg) : keyOf (s.withEnv q bs k) x = keyOf s x := rfl

/-! What an instruction does commutes with the change. -/

theorem skipIf_withEnv (c : Bool) : (s.withEnv q bs k).skipIf c = (s.skipIf c).withEnv q bs k := by cases c <;> rfl

theorem advanceI_withEnv (x : Reg) : (s.withEnv s.quirk bs k).advanceI x = (s.advanceI x).withEnv s.quirk bs k := by
  cases hq : s.quirk <;> simp [State.advanceI, State.withEnv, State.setI, hq]

theorem memWrite_withEnv (a : Nat) (data : List Byte) :
    memWrite a data (s.withEnv q bs k) = (memWrite a data s).map (State.withEnv · q bs k) := by
  unfold memWrite
  split <;> rfl

theorem push_withEnv (a : Word) : push a (s.withEnv q bs k) = (push a s).map (State.withEnv · q bs k) := by
  cases h : push a s with
  | error e =>
    have he := push_error.1 h
    exact push_error.2 he
  | ok t =>
    obtain ⟨hs, rfl⟩ := push_ok.1 h
    exact push_ok.2 ⟨hs, rfl⟩

theorem pop_withEnv : pop (s.withEnv q bs k) = (pop s).map (Prod.map id (State.withEnv · q bs k)) := by
  obtain ⟨_, _, _, _, _, ⟨_ | n, hn⟩⟩ := s <;> rfl

/-- Every instruction but CXNN and the readers of QUIRK does the same whatever QUIRK is and the random source holds; a reader
of QUIRK does so if QUIRK is as it was. -/
theorem exec_withEnv {i : Instr} (hr : ∀ x nn, i ≠ .rnd x nn) (hq : ReadsQuirk i → q = s.quirk) :
    exec i (s.withEnv q bs k) = mapNext (State.withEnv · q bs k) (exec i s) := by
  cases i with
  | rnd x nn => exact absurd rfl (hr x nn)
  | shr x y =>
    obtain rfl := hq (.inl ⟨x, y, .inl rfl⟩)
    rfl
  | shl x y =>
    obtain rfl := hq (.inl ⟨x, y, .inr rfl⟩)
    rfl
  | jpV0 nnn =>
    obtain rfl := hq (.inr (.inl ⟨nnn, rfl⟩))
    rfl
  | storeRegs x =>
    obtain rfl := hq (.inr (.inr ⟨x, .inl rfl⟩))
    simp only [exec, execStoreRegs, withEnv_dataAddr, withEnv_regs, memWrite_withEnv]
    cases h : memWrite s.dataAddr (s.regs.take (countOf x)) s with
    | error e => rfl
    | ok t =>
      obtain ⟨-, rfl⟩ := memWrite_ok.1 h
      exact congrArg Host.Outcome.next (advanceI_withEnv { s with mem := _ } bs k x)
  | loadRegs x =>
    obtain rfl := hq (.inr (.inr ⟨x, .inr rfl⟩))
    simp only [exec, execLoadRegs, withEnv_dataAddr, memRead_withEnv]
    cases memRead s.dataAddr (countOf x) s with
    | error e => rfl
    | ok bytes => exact congrArg Host.Outcome.next (advanceI_withEnv (s.setRegsFrom0 bytes) bs k x)
  | ret =>
    simp only [exec, execRet, pop_withEnv]
    cases pop s <;> rfl
  | call nnn =>
    simp only [exec, execCall, withEnv_pc, push_withEnv]
    cases push s.pc s <;> rfl
  | drw x y n =>
    simp only [exec, execDrw, withEnv_dataAddr, memRead_withEnv]
    cases memRead s.dataAddr n s <;> rfl
  | ldB x =>
    simp only [exec, execLdB, withEnv_dataAddr, withEnv_reg, memWrite_withEnv]
    cases memWrite s.dataAddr (bcd (s.reg x)) s <;> rfl
  | skp x | sknp x =>
    simp only [exec, execSkp, execSknp, keyOf_withEnv]
    cases keyOf s x with
    | error e => rfl
    | ok key => exact congrArg Host.Outcome.next (skipIf_withEnv s q bs k _)
  | ldVxK x =>
    simp only [exec, execLdVxK, withEnv_leastReleased]
    cases s.leastReleased <;> rfl
  | seImm | sneImm | seReg | sneReg => exact congrArg Host.Outcome.next (skipIf_withEnv s q bs k _)
  | _ => rfl

theorem fetch_withEnv : fetch (s.withEnv q bs k) = (fetch s).map (Prod.map id (State.withEnv · q bs k)) := by
  cases h : fetch s with
  | error e =>
    have he := fetch_error.1 h
    exact fetch_error.2 he
  | ok p =>
    obtain ⟨hr, hw, ht⟩ := fetch_ok.1 h
    exact fetch_ok.2 ⟨hr, hw, congrArg (State.withEnv · q bs k) ht⟩

/-- A step that fetches no CXNN does the same whatever the random source holds. -/
theorem step_withSource (hr : ∀ x nn, decode s.wordAtPC ≠ some (.rnd x nn)) :
    step (s.withEnv s.quirk bs k) = mapNext (State.withEnv · s.quirk bs k) (step s) := by
  simp only [step, fetch_withEnv]
  cases h : fetch s with
  | error e => rfl
  | ok p =>
    obtain ⟨w, t⟩ := p
    obtain ⟨-, rfl, rfl⟩ := fetch_ok.1 h
    simp only [Except.map, Prod.map, id_eq]
    cases hd : decode s.wordAtPC with
    | none => rfl
    | some i => exact exec_withEnv s.advance s.quirk bs k (fun x nn hi => hr x nn (hi ▸ hd)) fun _ => rfl

theorem stepLeft_withSource (hr : ∀ x nn, decode s.wordAtPC ≠ some (.rnd x nn)) :
    stepLeft (s.withEnv s.quirk bs k) = (stepLeft s).withEnv s.quirk bs k := by
  simp only [stepLeft, fetch_withEnv, step_withSource s bs k hr]
  cases fetch s with
  | error e => rfl
  | ok p => cases step s <;> rfl

end WithEnv

/-- QUIRK and the random source stand in `t` as in `s`. -/
def SameEnv (s t : State) : Prop := t.quirk = s.quirk ∧ t.rndIn = s.rndIn ∧ t.rndCount = s.rndCount

/-- The byte of Step(RND) taken away again. -/
theorem withEnv_restore {s t : State} (h : SameEnv s t) (bs : List Byte) :
    { t.withEnv s.quirk bs s.rndCount with rndIn := s.rndIn } = t := by
  obtain ⟨hq, hin, hcount⟩ := h
  rw [← hq, ← hin, ← hcount]
  rfl

/-- Every instruction but CXNN leaves QUIRK and the random source alone. -/
theorem exec_sameEnv {i : Instr} {s t : State} (hr : ∀ x nn, i ≠ .rnd x nn) (h : exec i s = .next t) : SameEnv s t := by
  cases exec_effect h with
  | rnd x nn => exact absurd rfl (hr x nn)
  | _ => simp [SameEnv]

theorem step_sameEnv {s t : State} (hr : ∀ x nn, decode s.wordAtPC ≠ some (.rnd x nn)) (h : step s = .next t) :
    SameEnv s t := by
  obtain ⟨i, -, hd, hx⟩ := step_next h
  exact exec_sameEnv (s := s.advance) (fun x nn hi => hr x nn (hi ▸ hd)) hx

theorem stepLeft_sameEnv {s : State} (hr : ∀ x nn, decode s.wordAtPC ≠ some (.rnd x nn)) :
    SameEnv s (stepLeft s) := by
  obtain h | ⟨-, h⟩ | h := stepLeft_cases s
  · rw [h]
    exact ⟨rfl, rfl, rfl⟩
  · rw [h]
    exact ⟨rfl, rfl, rfl⟩
  · exact step_sameEnv hr h

/-- Settles O47: the step with another random source is the same step with that source left in place, so Step(RND), which puts
its byte there for the step and takes it away again, is the same step. -/
theorem onlyRandomReadsTheRandomSource : Obligations.OnlyRandomReadsTheRandomSource := by
  intro s bs k rnd hr
  have hsame : step { s with rndIn := bs, rndCount := k } = mapNext (State.withEnv · s.quirk bs k) (step s) :=
    step_withSource s bs k hr
  have hrnd : step (s.withRnd rnd) = mapNext (State.withEnv · s.quirk [rnd] s.rndCount) (step s) :=
    step_withSource s [rnd] s.rndCount hr
  refine ⟨fun t ht => ?_, fun f hf => ?_, fun t ht => ?_, fun f hf => ?_⟩
  · have henv := step_sameEnv hr ht
    rw [ht] at hrnd
    simp only [hostOp, stepWith, hrnd, mapNext, withEnv_restore henv]
    exact ⟨trivial, henv.2⟩
  · have hleft : stepLeft (s.withRnd rnd) = (stepLeft s).withEnv s.quirk [rnd] s.rndCount :=
      stepLeft_withSource s [rnd] s.rndCount hr
    rw [hf] at hrnd
    simp only [hostOp, stepWith, hrnd, mapNext, stepWithLeft, hleft, withEnv_restore (stepLeft_sameEnv hr)]
  · rw [hsame, ht, mapNext, ← (step_sameEnv hr ht).1]
    rfl
  · rw [hsame, hf, mapNext]

/-- CXNN reads no QUIRK. -/
theorem exec_rnd_withQuirk (x : Reg) (nn : Byte) (s : State) (q : Bool) :
    exec (.rnd x nn) { s with quirk := q } = mapNext (fun t => { t with quirk := q }) (exec (.rnd x nn) s) := by
  obtain ⟨_, _, _, _, _, _, _, _, _, _, _, _, bs, _⟩ := s
  cases bs <;> rfl

/-- Settles O49: CXNN apart, an instruction that is none of the five commutes with the change of QUIRK. -/
theorem onlyFiveInstructionsReadQuirk : Obligations.OnlyFiveInstructionsReadQuirk := by
  intro i s t q hshift hjump hmove h
  by_cases hr : ∃ x nn, i = .rnd x nn
  · obtain ⟨x, nn, rfl⟩ := hr
    rw [exec_rnd_withQuirk, h, mapNext]
  · have hnot : ¬ ReadsQuirk i := by
      rintro (⟨x, y, hi⟩ | ⟨nnn, hi⟩ | ⟨x, hi⟩)
      · exact not_or.2 (hshift x y) hi
      · exact hjump nnn hi
      · exact not_or.2 (hmove x) hi
    have hrnd (x : Reg) (nn : Byte) : i ≠ .rnd x nn := fun hi => hr ⟨x, nn, hi⟩
    obtain ⟨-, hin, hcount⟩ := exec_sameEnv hrnd h
    have hsame : exec i { s with quirk := q } = mapNext (State.withEnv · q s.rndIn s.rndCount) (exec i s) :=
      exec_withEnv s q s.rndIn s.rndCount hrnd fun hi => absurd hi hnot
    rw [hsame, h, mapNext, ← hin, ← hcount]
    rfl

end Sys2Proof.Machine
end

section
/-!
PROOFS. CXNN's random byte, the reset state, and the setters of one flag.
-/

namespace Sys2Proof.Machine

/-! ## CXNN (R151) -/

theorem rndByte_of_injected {s : State} {b : Byte} {bs : List Byte} (h : s.rndIn = b :: bs) : s.rndByte = b := by
  simp [State.rndByte, h]

theorem rndByte_of_none_injected {s : State} (h : s.rndIn = []) : s.rndByte = Config.freeByte s.rndCount := by
  simp [State.rndByte, h]

/-- A draw changes the random source only. -/
theorem rndDrawn_eq (s : State) : s.rndDrawn = { s with rndIn := s.rndDrawn.rndIn, rndCount := s.rndDrawn.rndCount } := by
  unfold State.rndDrawn
  split <;> rfl

/-- Settles O16: the byte is the first one injected, or a free one. -/
theorem randomMasksTheSuppliedByte : Obligations.RandomMasksTheSuppliedByte := by
  intro x nn s
  refine ⟨_, rfl, ?_, fun r hne => ?_, fun b bs hin => ?_, fun hin => ?_, fun hnn => ?_⟩
  · rw [State.setReg, rndDrawn_eq]
  · simp [hne]
  · simp [rndByte_of_injected hin, hin]
  · simp [rndByte_of_none_injected hin, hin]
  · simp [hnn]

/-! ## Construct and Reset (R31, R240, R241) -/

/-- Settles O52: both are the reset state with another display that is blank, and with the values they keep. -/
theorem constructAndResetZeroTheState : Obligations.ConstructAndResetZeroTheState := by
  intro size q s t ht
  obtain ⟨size', q', bs, n, rfl⟩ : ∃ size' q' bs n,
      t = { State.reset with disp := .blank size', quirk := q', rndIn := bs, rndCount := n } := by
    obtain rfl | rfl := ht
    · exact ⟨size, q, [], 0, rfl⟩
    · exact ⟨s.disp.size, s.quirk, s.rndIn, s.rndCount, rfl⟩
  simp [construct, hostOp, resetOp, State.reset, State.reg, Config.programStart]

/-! ## The setters of one flag (R8, R222) -/

/-- Settles O58: a flag is one entry of its vector, and QUIRK is one field. -/
theorem keyAndQuirkSettersWriteOneFlag : Obligations.KeyAndQuirkSettersWriteOneFlag := fun k b s =>
  ⟨⟨_, rfl, rfl, fun j => vector_get_set s.held k j b⟩, ⟨_, rfl, rfl, fun j => vector_get_set s.released k j b⟩, rfl⟩

end Sys2Proof.Machine
end


section
/-!
PROOFS. What an instruction leaves alone: the invariant step, the registers and the memory it does not write.
-/

namespace Sys2Proof.Machine

/-- Settles O43: the fetch's advance keeps the invariant, and so does every instruction that runs after it. -/
theorem stepKeepsTheInvariant : Obligations.StepKeepsTheInvariant := fun _ _ hi h => step_invariant hi h

/-! ## Registers (R22, R23) -/

/-- A register the instruction may not write is no destination of it, and is not VF if it writes a flag. -/
theorem mayWrite_eq_false {i : Instr} {r : Reg} :
    mayWrite i r = false ↔ hasDest i r = false ∧ (writesFlag i = true → r ≠ VF) := by
  simp [mayWrite, imp_iff_not_or]

/-- Settles O40: the instructions that write registers do so through `setReg`, `setFlag` and `setRegsFrom0`, whose frames are
known; the others leave V as it is. -/
theorem onlyNamedRegistersAreWritten : Obligations.OnlyNamedRegistersAreWritten := by
  intro i s t r h hw
  obtain ⟨hdest, hflag⟩ := mayWrite_eq_false.1 hw
  cases i with
  | ldImm | addImm | ldReg | orReg | andReg | xorReg | rnd | ldVxDT =>
    cases h
    simp_all [hasDest]
  | addReg | subReg | shr | subnReg | shl =>
    cases h
    simp_all [hasDest, writesFlag]
  | addI =>
    cases h
    simp_all [writesFlag]
  | drw =>
    obtain ⟨-, p, -, rfl⟩ := exec_drw_next h
    simp_all [writesFlag]
  | ldVxK =>
    obtain ⟨k, -, rfl⟩ | ⟨-, rfl⟩ := exec_ldVxK_next h
    · simp_all [hasDest]
    · rfl
  | loadRegs x =>
    obtain ⟨-, rfl⟩ := exec_loadRegs_next h
    have hlt : x < r := by simpa [hasDest] using hdest
    rw [reg_advanceI, reg_setRegsFrom0, List.getElem?_eq_none (by simpa using hlt), Option.getD_none]
  | ret =>
    obtain ⟨k, hk, -, rfl⟩ := exec_ret_next h
    rfl
  | call =>
    obtain ⟨hs, rfl⟩ := exec_call_next h
    rfl
  | ldB =>
    obtain ⟨-, rfl⟩ := exec_ldB_next h
    rfl
  | storeRegs x =>
    obtain ⟨-, rfl⟩ := exec_storeRegs_next h
    exact reg_advanceI _ x r
  | skp =>
    obtain ⟨k, -, rfl⟩ := exec_skp_next h
    exact reg_skipIf s _ r
  | sknp =>
    obtain ⟨k, -, rfl⟩ := exec_sknp_next h
    exact reg_skipIf s _ r
  | seImm | sneImm | seReg | sneReg =>
    cases h
    exact reg_skipIf s _ r
  | cls | jp | jpV0 | ldI | ldF | ldDTVx | ldSTVx =>
    cases h
    rfl

/-! ## Memory (R30, R51, R54) -/

/-- Memory is written by FX33 and FX55 only (R30). -/
theorem exec_mem_of_no_store {i : Instr} {s t : State} (hb : ∀ x, i ≠ .ldB x) (hr : ∀ x, i ≠ .storeRegs x)
    (h : exec i s = .next t) : t.mem = s.mem := by
  cases exec_effect h with
  | ldB x => exact absurd rfl (hb x)
  | storeRegs x => exact absurd rfl (hr x)
  | _ => simp

/-- Memory after an instruction is memory before it with the stored bytes written from I on; if there are any, the block lies
in memory. -/
theorem exec_mem {i : Instr} {s t : State} (h : exec i s = .next t) :
    t.mem = s.mem.setBytes s.i.toNat (stored i s) ∧
      (stored i s = [] ∨ s.i.toNat + (stored i s).length ≤ Config.memSize) := by
  cases i with
  | ldB x =>
    obtain ⟨hin, rfl⟩ := exec_ldB_next h
    exact ⟨rfl, .inr ((inRange_iff _ _).1 hin).2⟩
  | storeRegs x =>
    obtain ⟨hin, rfl⟩ := exec_storeRegs_next h
    refine ⟨State.advanceI_mem _ x, .inr ?_⟩
    rw [stored, regs_take_length]
    exact ((inRange_iff _ _).1 hin).2
  | _ => exact ⟨exec_mem_of_no_store (by simp) (by simp) h, .inl rfl⟩

/-- Settles O42: memory changes by one block write, that of the stored bytes. -/
theorem onlyTheStoredBytesChange : Obligations.OnlyTheStoredBytesChange := by
  intro i s t hwf h
  obtain ⟨hmem, hfit⟩ := exec_mem h
  rw [hmem]
  refine ⟨fun k hk => ?_, fun a ha => Memory.get_setBytes_outside _ _ _ ha, fun hnil => by rw [hnil]; rfl⟩
  have hne : stored i s ≠ [] := List.ne_nil_of_length_pos (Nat.zero_lt_of_lt hk)
  exact Memory.get_setBytes_inside hwf (hfit.resolve_left hne) hk

end Sys2Proof.Machine
end

section
/-!
PROOFS. What most instructions cannot see: ST, the keypad and the stale entries of the stack. `State.withUnread` puts other
values there, and `exec_withUnread` says that an instruction which reads none of them does the same with them.
-/

namespace Sys2Proof.Machine

/-- The state with another ST, another stack and another keypad. -/
def State.withUnread (s : State) (b : Byte) (stk : Vector Word 16) (held released : Vector Bool 16) : State :=
  { s with st := b, stack := stk, held := held, released := released }

/-- The entries of two stacks below entry n are the same (R26). -/
def AgreeBelow (n : Nat) (u v : Vector Word 16) : Prop := ∀ k : Fin 16, k.val < n → u.get k = v.get k

/-- ST after an instruction that finds `b` there: FX18 alone writes it (R195). -/
def stAfter (i : Instr) (s : State) (b : Byte) : Byte :=
  match i with
  | .ldSTVx x => s.reg x
  | _ => b

/-- The stack after an instruction that finds `stk` there: 2NNN alone writes it (R122). -/
def stackAfter (i : Instr) (s : State) (stk : Vector Word 16) : Vector Word 16 :=
  match i with
  | .call _ => stk.setIfInBounds s.sp.val s.pc
  | _ => stk

section WithUnread

variable (s : State) (b : Byte) (stk : Vector Word 16) (held released : Vector Bool 16)

/-! What an instruction reads, apart from the values put there, is the same. -/

@[simp] theorem withUnread_pc : (s.withUnread b stk held released).pc = s.pc := rfl
@[simp] theorem withUnread_dataAddr : (s.withUnread b stk held released).dataAddr = s.dataAddr := rfl
@[simp] theorem withUnread_reg (r : Reg) : (s.withUnread b stk held released).reg r = s.reg r := rfl
@[simp] theorem withUnread_regs : (s.withUnread b stk held released).regs = s.regs := rfl
@[simp] theorem memRead_withUnread (a n : Nat) : memRead a n (s.withUnread b stk held released) = memRead a n s := rfl
@[simp] theorem keyOf_withUnread (x : Reg) : keyOf (s.withUnread b stk held released) x = keyOf s x := rfl
@[simp] theorem leastReleased_withUnread :
    (s.withUnread b stk held s.released).leastReleased = s.leastReleased := rfl

/-! What an instruction does commutes with the change. -/

theorem skipIf_withUnread (c : Bool) :
    (s.withUnread b stk held released).skipIf c = (s.skipIf c).withUnread b stk held released := by cases c <;> rfl

theorem advanceI_withUnread (x : Reg) :
    (s.withUnread b stk held released).advanceI x = (s.advanceI x).withUnread b stk held released := by
  cases hq : s.quirk <;> simp [State.advanceI, State.withUnread, State.setI, hq]

theorem rndDrawn_withUnread :
    (s.withUnread b stk held released).rndDrawn = s.rndDrawn.withUnread b stk held released := by
  cases hb : s.rndIn <;> simp [State.rndDrawn, State.withUnread, hb]

theorem memWrite_withUnread (a : Nat) (data : List Byte) :
    memWrite a data (s.withUnread b stk held released) =
      (memWrite a data s).map (State.withUnread · b stk held released) := by
  unfold memWrite
  split <;> rfl

theorem push_withUnread (a : Word) :
    push a (s.withUnread b stk held released) =
      (push a s).map (State.withUnread · b (stk.setIfInBounds s.sp.val a) held released) := by
  cases h : push a s with
  | error e =>
    have he := push_error.1 h
    exact push_error.2 he
  | ok t =>
    obtain ⟨hs, rfl⟩ := push_ok.1 h
    have hset : stk.setIfInBounds s.sp.val a = stk.set s.sp.val a hs :=
      Vector.ext fun j hj => by rw [Vector.getElem_setIfInBounds, Vector.getElem_set]
    exact push_ok.2 ⟨hs, by simp [State.withUnread, hset]⟩

/-- A pop reads the topmost entry in use and no other. -/
theorem pop_withUnread {s : State} {stk : Vector Word 16} (ha : AgreeBelow s.sp.val stk s.stack) :
    pop (s.withUnread b stk held released) = (pop s).map (Prod.map id (State.withUnread · b stk held released)) := by
  cases h : pop s with
  | error e =>
    have he := pop_error.1 h
    exact pop_error.2 he
  | ok p =>
    obtain ⟨a, t⟩ := p
    obtain ⟨k, hk, hs, rfl, rfl⟩ := pop_ok.1 h
    exact pop_ok.2 ⟨k, hk, hs, (ha ⟨k, hk⟩ (by simp [hs])).symm, rfl⟩

/-- An instruction does the same whatever ST is, the stack holds at SP and above, and the keypad holds; the readers of the
keypad do so if the flags they read are as they were. -/
theorem exec_withUnread {s : State} {stk : Vector Word 16} {held released : Vector Bool 16} {i : Instr}
    (ha : AgreeBelow s.sp.val stk s.stack) (hh : (∃ x, i = .skp x ∨ i = .sknp x) → held = s.held)
    (hr : (∃ x, i = .ldVxK x) → released = s.released) :
    exec i (s.withUnread b stk held released) =
      mapNext (State.withUnread · (stAfter i s b) (stackAfter i s stk) held released) (exec i s) := by
  cases i with
  | ret =>
    simp only [exec, execRet, pop_withUnread b held released ha]
    cases pop s <;> rfl
  | call nnn =>
    simp only [exec, execCall, withUnread_pc, push_withUnread]
    cases push s.pc s <;> rfl
  | drw x y n =>
    simp only [exec, execDrw, withUnread_dataAddr, memRead_withUnread]
    cases memRead s.dataAddr n s <;> rfl
  | ldB x =>
    simp only [exec, execLdB, withUnread_dataAddr, withUnread_reg, memWrite_withUnread]
    cases memWrite s.dataAddr (bcd (s.reg x)) s <;> rfl
  | storeRegs x =>
    simp only [exec, execStoreRegs, withUnread_dataAddr, withUnread_regs, memWrite_withUnread]
    cases memWrite s.dataAddr (s.regs.take (countOf x)) s with
    | error e => rfl
    | ok t => exact congrArg Host.Outcome.next (advanceI_withUnread t b stk held released x)
  | loadRegs x =>
    simp only [exec, execLoadRegs, withUnread_dataAddr, memRead_withUnread]
    cases memRead s.dataAddr (countOf x) s with
    | error e => rfl
    | ok bytes => exact congrArg Host.Outcome.next (advanceI_withUnread (s.setRegsFrom0 bytes) b stk held released x)
  | skp x | sknp x =>
    obtain rfl := hh ⟨x, by simp⟩
    simp only [exec, execSkp, execSknp, keyOf_withUnread]
    cases keyOf s x with
    | error e => rfl
    | ok key => exact congrArg Host.Outcome.next (skipIf_withUnread s b stk s.held released _)
  | ldVxK x =>
    obtain rfl := hr ⟨x, rfl⟩
    simp only [exec, execLdVxK, leastReleased_withUnread]
    cases s.leastReleased <;> rfl
  | seImm | sneImm | seReg | sneReg =>
    exact congrArg Host.Outcome.next (skipIf_withUnread s b stk held released _)
  | rnd x nn =>
    simp only [exec, execRnd, rndDrawn_withUnread]
    rfl
  | _ => rfl

end WithUnread

/-- What an instruction leaves in ST, the stack and the keypad. -/
theorem exec_unread {i : Instr} {s t : State} (h : exec i s = .next t) :
    t = t.withUnread (stAfter i s s.st) (stackAfter i s s.stack) s.held s.released := by
  have := exec_withUnread s.st (stk := s.stack) (i := i) (fun _ _ => rfl) (fun _ => rfl) fun _ => rfl
  change exec i s = _ at this
  simpa [h, mapNext] using this

/-- `exec_withUnread` for an instruction that answers a next state. -/
theorem exec_withUnread_next {i : Instr} {s t : State} (h : exec i s = .next t) (b : Byte) {stk : Vector Word 16}
    {held released : Vector Bool 16} (ha : AgreeBelow s.sp.val stk s.stack)
    (hh : (∃ x, i = .skp x ∨ i = .sknp x) → held = s.held) (hr : (∃ x, i = .ldVxK x) → released = s.released) :
    exec i (s.withUnread b stk held released) =
      .next (t.withUnread (stAfter i s b) (stackAfter i s stk) held released) := by
  rw [exec_withUnread b ha hh hr, h, mapNext]

/-! ## The keypad (R29) -/

/-- Settles O48: an instruction that reads one of the two key vectors commutes with a change of the other. -/
theorem onlyKeyInstructionsReadTheKeypad : Obligations.OnlyKeyInstructionsReadTheKeypad := by
  intro i s t held released h
  have hagree : AgreeBelow s.sp.val s.stack s.stack := fun _ _ => rfl
  have ht := exec_unread h
  refine ⟨fun hne => ?_, fun hne => ?_⟩
  · rw [ht]
    exact exec_withUnread_next h s.st hagree (fun ⟨x, hx⟩ => absurd hx (not_or.2 (hne x))) fun _ => rfl
  · rw [ht]
    exact exec_withUnread_next h s.st hagree (fun _ => rfl) fun ⟨x, hx⟩ => absurd hx (hne x)

/-! ## ST and the stale entries, along a step (R26, R27) -/

/-- Two states with the same PC and memory fetch the same instruction, so what relates its execution on them relates their
steps. (A step that runs no instruction ends in the same error on both; any instruction stands for it then.) -/
theorem step_mapNext {s s' : State} {u : Instr → State → State} (hpc : s'.pc = s.pc) (hmem : s'.mem = s.mem)
    (hx : ∀ i, exec i s'.advance = mapNext (u i) (exec i s.advance)) :
    ∃ i, step s' = mapNext (u i) (step s) ∧ ∀ t, step s = .next t → exec i s.advance = .next t := by
  have hword : s'.wordAtPC = s.wordAtPC := by rw [State.wordAtPC, hpc, hmem, State.wordAtPC]
  simp only [step, fetch, raiseInFetch, raise, State.instrAddr, hpc, hword]
  cases inRange s.pc.toNat 2 with
  | false => exact ⟨.cls, rfl, nofun⟩
  | true =>
    cases hd : decode s.wordAtPC with
    | none => exact ⟨.cls, by simp [hd, mapNext, hpc], by simp [hd]⟩
    | some i => exact ⟨i, by simp [hd, hx], by simp [hd]⟩

/-- A step with another ST and other stale stack entries. -/
theorem step_withUnread {s : State} (b : Byte) {stk : Vector Word 16} (ha : AgreeBelow s.sp.val stk s.stack) :
    ∃ i, step (s.withUnread b stk s.held s.released) =
        mapNext (State.withUnread · (stAfter i s.advance b) (stackAfter i s.advance stk) s.held s.released) (step s) ∧
      ∀ t, step s = .next t → exec i s.advance = .next t :=
  step_mapNext rfl rfl fun _ => exec_withUnread (s := s.advance) b ha (fun _ => rfl) fun _ => rfl

/-- Settles O46: the two steps run the same instruction, and what it leaves differs in ST only. -/
theorem soundTimerIsInvisible : Obligations.SoundTimerIsInvisible := by
  intro s b
  obtain ⟨i, hstep, hexec⟩ := step_withUnread (s := s) b (stk := s.stack) fun _ _ => rfl
  change step { s with st := b } = _ at hstep
  refine ⟨fun t h => ⟨stAfter i s.advance b, ?_⟩, fun f h => ?_⟩
  · rw [hstep, h, exec_unread (hexec t h)]
    rfl
  · rw [hstep, h, mapNext]

/-- What an instruction other than 2NNN finds as stack it leaves as stack. -/
theorem stackAfter_of_no_call {i : Instr} (hc : ∀ nnn, i ≠ .call nnn) (s : State) (stk : Vector Word 16) :
    stackAfter i s stk = stk := by
  cases i with
  | call nnn => exact absurd rfl (hc nnn)
  | _ => rfl

/-- An instruction other than 2NNN writes no stack entry, and uses no more of them than before (R26). -/
theorem exec_stack_of_no_call {i : Instr} {s t : State} (hc : ∀ nnn, i ≠ .call nnn) (h : exec i s = .next t) :
    t.stack = s.stack ∧ t.sp.val ≤ s.sp.val := by
  cases exec_effect h with
  | call nnn => exact absurd rfl (hc nnn)
  | ret hk hs => exact ⟨rfl, hs ▸ Nat.le_succ _⟩
  | _ => simp

/-- Stacks that agree below SP agree below the new SP after an instruction: 2NNN pushes the same value on both, and no other
instruction uses more entries. -/
theorem exec_agreeBelow {i : Instr} {s t : State} {stk : Vector Word 16} (ha : AgreeBelow s.sp.val stk s.stack)
    (h : exec i s = .next t) : AgreeBelow t.sp.val (stackAfter i s stk) t.stack := by
  by_cases hc : ∃ nnn, i = .call nnn
  · obtain ⟨nnn, rfl⟩ := hc
    obtain ⟨hs, rfl⟩ := exec_call_next h
    intro k hk
    have hk : k.val < s.sp.val + 1 := hk
    simp only [stackAfter, Vector.get_eq_getElem, Vector.getElem_setIfInBounds, Vector.getElem_set]
    split
    · rfl
    · exact ha k (by omega)
  · rw [not_exists] at hc
    obtain ⟨hstack, hsp⟩ := exec_stack_of_no_call hc h
    rw [stackAfter_of_no_call hc, hstack]
    exact fun k hk => ha k (Nat.lt_of_lt_of_le hk hsp)

/-- Settles O50: the two steps run the same instruction, and what it leaves differs in stack entries from SP on only. -/
theorem staleStackEntriesAreInvisible : Obligations.StaleStackEntriesAreInvisible := by
  intro s stk ha
  obtain ⟨i, hstep, hexec⟩ := step_withUnread s.st ha
  change step { s with stack := stk } = _ at hstep
  refine ⟨fun t h => ⟨stackAfter i s.advance stk, ?_, ?_⟩, fun f h => ?_⟩
  · rw [hstep, h, exec_unread (hexec t h)]
    rfl
  · exact exec_agreeBelow (s := s.advance) ha (hexec t h)
  · rw [hstep, h, mapNext]

end Sys2Proof.Machine
end

section
/-!
PROOFS. Memory: canonical memories are determined by their reads, the next fetch sees a store, and the host's reads and writes.
-/

namespace Sys2Proof.Machine

/-! ## The canonical form (R50) -/

namespace Memory

theorem wfFrom_cons {lo a : Nat} {x : Byte} {m : Memory} :
    Memory.wfFrom lo ((a, x) :: m) = true ↔ lo ≤ a ∧ a < Config.memSize ∧ x ≠ 0#8 ∧ m.wfFrom (a + 1) = true := by
  simp [Memory.wfFrom, and_assoc]

/-- A canonical memory that reads as another byte than 0 at an address begins there or below. -/
theorem exists_cons_of_get_ne_zero {m : Memory} {lo a : Nat} (h : m.wfFrom lo = true) (ha : m.get a ≠ 0#8) :
    ∃ b y n, m = (b, y) :: n ∧ b ≤ a := by
  cases m with
  | nil => exact absurd (get_nil a) ha
  | cons c n =>
    obtain ⟨b, y⟩ := c
    obtain ⟨-, hb⟩ := wfFrom_cons.1 h
    exact ⟨b, y, n, rfl, Nat.le_of_not_lt fun hlt => ha (get_below (wfFrom_cons.2 ⟨Nat.le_refl b, hb⟩) hlt)⟩

theorem get_cons_self (a : Nat) (x : Byte) (m : Memory) : Memory.get ((a, x) :: m) a = x := if_pos rfl

theorem get_cons_ne {a b : Nat} (h : b ≠ a) (x : Byte) (m : Memory) : Memory.get ((a, x) :: m) b = m.get b :=
  if_neg h

/-- Canonical memories are determined by their reads: neither can begin below the other, where it would read as another byte
than 0 and the other as 0. -/
theorem wfFrom_ext {m m' : Memory} {lo lo' : Nat} (h : m.wfFrom lo = true) (h' : m'.wfFrom lo' = true)
    (hget : ∀ a, m.get a = m'.get a) : m = m' := by
  induction m generalizing m' lo lo' with
  | nil =>
    cases m' with
    | nil => rfl
    | cons c n =>
      obtain ⟨b, y⟩ := c
      obtain ⟨-, -, hy, -⟩ := wfFrom_cons.1 h'
      exact absurd (get_cons_self b y n ▸ (hget b).symm) hy
  | cons c m ih =>
    obtain ⟨a, x⟩ := c
    obtain ⟨-, -, hx, hm⟩ := wfFrom_cons.1 h
    have hxa : m'.get a = x := by rw [← hget, get_cons_self]
    obtain ⟨b, y, n, rfl, hba⟩ := exists_cons_of_get_ne_zero h' (hxa ▸ hx)
    obtain ⟨-, -, hy, hn⟩ := wfFrom_cons.1 h'
    have hyb : Memory.get ((a, x) :: m) b = y := by rw [hget, get_cons_self]
    obtain ⟨_, _, _, heq, hab⟩ := exists_cons_of_get_ne_zero h (hyb ▸ hy)
    cases heq
    obtain rfl : b = a := Nat.le_antisymm hba hab
    obtain rfl : y = x := by rw [← hxa, get_cons_self]
    congr 1
    refine ih hm hn fun k => ?_
    by_cases hk : k = b
    · rw [hk, get_below hm (Nat.lt_succ_self b), get_below hn (Nat.lt_succ_self b)]
    · rw [← get_cons_ne hk y m, hget, get_cons_ne hk]

end Memory

/-- Settles O51, by induction on the two lists of cells. -/
theorem canonicalMemoriesAreDeterminedByReads : Obligations.CanonicalMemoriesAreDeterminedByReads :=
  fun _ _ hm hm' => Memory.wfFrom_ext hm hm'

/-! ## A store, and the fetch that follows (R63) -/

/-- FX55 stores V[k] at I + k (R174). -/
theorem exec_storeRegs_get {x k : Reg} {s t : State} (hwf : s.mem.wf = true) (h : exec (.storeRegs x) s = .next t)
    (hk : k ≤ x) : t.mem.get (s.i.toNat + k.val) = s.reg k := by
  obtain ⟨hstored, -⟩ := onlyTheStoredBytesChange (.storeRegs x) s t hwf h
  have hlt : k.val < (s.regs.take (countOf x)).length := by
    rw [regs_take_length]
    exact Nat.lt_succ_of_le hk
  rw [hstored k hlt, ← regs_getElem s k (by simp) k.isLt]
  exact List.getElem_take

/-- Settles O30: the two bytes at PC are V0 and V1. -/
theorem storedWordIsTheNextFetched : Obligations.StoredWordIsTheNextFetched := by
  intro x s t hwf hx hi h
  have hv0 := exec_storeRegs_get (k := 0) hwf h (Fin.zero_le x)
  have hv1 := exec_storeRegs_get (k := 1) hwf h hx
  obtain ⟨hr, ht⟩ := exec_storeRegs_next h
  have hpc : t.pc = s.pc := by rw [ht, State.advanceI_pc]
  rw [hi, ← hpc] at hv0 hv1 hr
  rw [← hpc]
  obtain ⟨hlo, hfit⟩ := (inRange_iff _ _).1 hr
  exact fetch_ok.2 ⟨(inRange_iff _ _).2 ⟨hlo, by omega⟩, congrArg₂ wordOfBytes hv0.symm hv1.symm, rfl⟩

/-! ## The host's reads (R53, R66, R67) -/

theorem inRange_eq_false {a len : Nat} (h : ¬ (a < 4096 ∧ a + len ≤ 4096)) : inRange a len = false :=
  Bool.eq_false_iff.2 fun hr => h ((inRange_iff a len).1 hr)

theorem hostOp_readSlice_ok {a len : Nat} (s : State) (h : a < 4096 ∧ a + len ≤ 4096) :
    hostOp (.readSlice a len) s = (.bytes (s.mem.getBytes a len), s) := by
  simp only [hostOp, readSlice, memRead_ok.2 ⟨(inRange_iff a len).2 h, rfl⟩]

theorem hostOp_readSlice_error {a len : Nat} (s : State) (h : ¬ (a < 4096 ∧ a + len ≤ 4096)) :
    hostOp (.readSlice a len) s = (.error (.memRange a len), s) := by
  simp only [hostOp, readSlice, memRead_error.2 ⟨inRange_eq_false h, rfl⟩]

/-- Settles O60: the slice is the block of memory at the address. -/
theorem readSliceGivesTheBytesOfMemory : Obligations.ReadSliceGivesTheBytesOfMemory := fun a len s =>
  ⟨fun h => ⟨_, hostOp_readSlice_ok s h, s.mem.getBytes_length a len, s.mem.getBytes_getElem a len⟩,
   hostOp_readSlice_error s⟩

theorem hostOp_readByte_ok {a : Nat} (s : State) (h : a < 4096) : hostOp (.readByte a) s = (.byte (s.mem.get a), s) := by
  have hr : inRange a 1 = true := (inRange_iff a 1).2 ⟨h, h⟩
  simp [hostOp, readByte, hr]

theorem hostOp_readByte_error {a : Nat} (s : State) (h : ¬ a < 4096) :
    hostOp (.readByte a) s = (.error (.memRange a 1), s) := by
  have hr : inRange a 1 = false := inRange_eq_false fun hr => h hr.1
  simp [hostOp, readByte, hr]

/-! ## The host's writes (R54, R65 to R68) -/

theorem replyWrite_memWrite_ok {a : Nat} {bs : List Byte} (s : State) (h : a < 4096 ∧ a + bs.length ≤ 4096) :
    replyWrite s (memWrite a bs s) = (.ok, { s with mem := s.mem.setBytes a bs }) := by
  rw [memWrite_ok.2 ⟨(inRange_iff _ _).2 h, rfl⟩, replyWrite]

theorem replyWrite_memWrite_error {a : Nat} {bs : List Byte} (s : State) (h : ¬ (a < 4096 ∧ a + bs.length ≤ 4096)) :
    replyWrite s (memWrite a bs s) = (.error (.memRange a bs.length), s) := by
  rw [memWrite_error.2 ⟨inRange_eq_false h, rfl⟩, replyWrite]

/-- Settles O55: WriteByte is the write of a block of one byte. -/
theorem byteOperationsReadAndWriteOneByte : Obligations.ByteOperationsReadAndWriteOneByte := by
  intro a b s hwf
  refine ⟨fun h => ⟨hostOp_readByte_ok s h, _, replyWrite_memWrite_ok s ⟨h, h⟩, rfl, ?_, fun a' ha' => ?_⟩,
    fun h => ⟨hostOp_readByte_error s h, replyWrite_memWrite_error s fun hr => h hr.1⟩⟩
  · exact Memory.get_set_self s.mem a b hwf
  · exact Memory.get_set_ne s.mem b ha'

/-- A slice whose length is the one asked for is a block write. -/
theorem hostOp_writeSlice (a : Nat) (data : List Byte) (s : State) :
    hostOp (.writeSlice a data.length data) s = replyWrite s (memWrite a data s) := by
  rw [hostOp, writeSlice, if_pos rfl]

theorem hostOp_writeSlice_of_length_ne {a len : Nat} {data : List Byte} (s : State) (h : data.length ≠ len) :
    hostOp (.writeSlice a len data) s = (.error (.memRange a len), s) := by
  rw [hostOp, writeSlice, if_neg h, replyWrite]

/-- LoadProgram is a WriteSlice of the program's own length (R68). -/
theorem hostOp_loadProgram (offset : Nat) (bytes : List Byte) (s : State) :
    hostOp (.loadProgram offset bytes) s = replyWrite s (memWrite offset bytes s) := hostOp_writeSlice offset bytes s

/-- Settles O54: a block read back just after it was written. -/
theorem loadedProgramReadsBack : Obligations.LoadedProgramReadsBack := by
  intro offset bytes s hwf
  rw [hostOp_loadProgram]
  refine ⟨fun h => ⟨_, replyWrite_memWrite_ok s h, rfl, ?_, fun a ha => ?_⟩, replyWrite_memWrite_error s⟩
  · rw [hostOp_readSlice_ok _ h, Memory.getBytes_setBytes hwf h.2]
  · exact Memory.get_setBytes_outside s.mem offset bytes ha

theorem hostOp_replaceMemory_ok {img : List Byte} (s : State) (h : img.length = 4096) :
    hostOp (.replaceMemory img) s = (.ok, { s with mem := Memory.setBytes [] 0 img }) := by
  rw [hostOp, replaceMemory, Config.memSize, if_pos h, replyWrite]

theorem hostOp_replaceMemory_error {img : List Byte} (s : State) (h : img.length ≠ 4096) :
    hostOp (.replaceMemory img) s = (.error (.memRange 0 img.length), s) := by
  rw [hostOp, replaceMemory, Config.memSize, if_neg h, replyWrite]

/-- Settles O56: ReplaceMemory writes the image as one block over the empty memory, WriteSlice its data over the present one. -/
theorem blockWritesCheckTheirLength : Obligations.BlockWritesCheckTheirLength := by
  intro a len data s
  refine ⟨fun h => ⟨_, hostOp_replaceMemory_ok s h, rfl, fun k hk => ?_⟩, hostOp_replaceMemory_error s, ?_, fun h => ?_⟩
  · have hget := Memory.get_setBytes_inside (m := []) (a := 0) rfl (by rw [h]; rfl) hk
    rwa [Nat.zero_add] at hget
  · rintro hwf rfl h
    refine ⟨_, (hostOp_writeSlice a data s).trans (replyWrite_memWrite_ok s h), rfl, fun k hk => ?_, fun a' ha' => ?_⟩
    · exact Memory.get_setBytes_inside hwf h.2 hk
    · exact Memory.get_setBytes_outside s.mem a data ha'
  · by_cases hlen : data.length = len
    · subst hlen
      rw [hostOp_writeSlice]
      exact replyWrite_memWrite_error s (h.resolve_left fun hne => hne rfl)
    · exact hostOp_writeSlice_of_length_ne s hlen

end Sys2Proof.Machine
end

section
/-!
PROOFS. The words and the instructions (R82 to R86). A format's fields are read back as they were written, and every word is
the word its own fields make, in each format; so decode and encode undo each other, and a row of the opcode table, which
fixes the category and perhaps a selector, fixes the format's other fields by the word.
-/

namespace Sys2Proof

/-! ## The fields of a word each format makes (R84) -/

@[simp] theorem catOf_encNNN (c : BitVec 4) (nnn : Addr12) : catOf (encNNN c nnn) = c := by
  apply BitVec.eq_of_toNat_eq
  rw [catOf_toNat, encNNN_toNat]
  omega

@[simp] theorem nnnOf_encNNN (c : BitVec 4) (nnn : Addr12) : nnnOf (encNNN c nnn) = nnn := by
  apply BitVec.eq_of_toNat_eq
  rw [nnnOf_toNat, encNNN_toNat]
  omega

@[simp] theorem catOf_encXNN (c : BitVec 4) (x : Reg) (nn : Byte) : catOf (encXNN c x nn) = c := by
  apply BitVec.eq_of_toNat_eq
  rw [catOf_toNat, encXNN_toNat]
  omega

@[simp] theorem xOf_encXNN (c : BitVec 4) (x : Reg) (nn : Byte) : xOf (encXNN c x nn) = x := by
  apply Fin.ext
  rw [xOf_val, encXNN_toNat]
  omega

@[simp] theorem nnOf_encXNN (c : BitVec 4) (x : Reg) (nn : Byte) : nnOf (encXNN c x nn) = nn := by
  apply BitVec.eq_of_toNat_eq
  rw [nnOf_toNat, encXNN_toNat]
  omega

/-- Format xfn is format xnn with a selector for the byte (R84). -/
@[simp] theorem encXFN_eq (c : BitVec 4) (x : Reg) (f : Byte) : encXFN c x f = encXNN c x f := rfl

@[simp] theorem catOf_encXYN (c : BitVec 4) (x y : Reg) (n : BitVec 4) : catOf (encXYN c x y n) = c := by
  apply BitVec.eq_of_toNat_eq
  rw [catOf_toNat, encXYN_toNat]
  omega

@[simp] theorem xOf_encXYN (c : BitVec 4) (x y : Reg) (n : BitVec 4) : xOf (encXYN c x y n) = x := by
  apply Fin.ext
  rw [xOf_val, encXYN_toNat]
  omega

@[simp] theorem yOf_encXYN (c : BitVec 4) (x y : Reg) (n : BitVec 4) : yOf (encXYN c x y n) = y := by
  apply Fin.ext
  rw [yOf_val, encXYN_toNat]
  omega

@[simp] theorem nOf_encXYN (c : BitVec 4) (x y : Reg) (n : BitVec 4) : nOf (encXYN c x y n) = n := by
  apply BitVec.eq_of_toNat_eq
  rw [nOf_toNat, encXYN_toNat]
  omega

/-! ## Every word in each format (R82) -/

theorem encNNN_fields (w : Word) : encNNN (catOf w) (nnnOf w) = w := by
  apply BitVec.eq_of_toNat_eq
  rw [encNNN_toNat, catOf_toNat, nnnOf_toNat]
  omega

theorem encXNN_fields (w : Word) : encXNN (catOf w) (xOf w) (nnOf w) = w := by
  apply BitVec.eq_of_toNat_eq
  rw [encXNN_toNat, catOf_toNat, xOf_val, nnOf_toNat]
  omega

theorem encXYN_fields (w : Word) : encXYN (catOf w) (xOf w) (yOf w) (nOf w) = w := by
  apply BitVec.eq_of_toNat_eq
  rw [encXYN_toNat, catOf_toNat, xOf_val, yOf_val, nOf_toNat]
  omega

theorem encNNN_of_cat {w : Word} {c : BitVec 4} (hc : catOf w = c) : encNNN c (nnnOf w) = w :=
  hc ▸ encNNN_fields w

theorem encXNN_of_cat {w : Word} {c : BitVec 4} (hc : catOf w = c) : encXNN c (xOf w) (nnOf w) = w :=
  hc ▸ encXNN_fields w

theorem encXFN_of_cat {w : Word} {c : BitVec 4} {f : Byte} (hc : catOf w = c) (hf : nnOf w = f) :
    encXFN c (xOf w) f = w :=
  hf ▸ encXNN_of_cat hc

theorem encXYN_of_cat {w : Word} {c n : BitVec 4} (hc : catOf w = c) (hn : nOf w = n) :
    encXYN c (xOf w) (yOf w) n = w :=
  hc ▸ hn ▸ encXYN_fields w

/-! ## Decode of encode (R84, R85) -/

/-- The case split follows the formats and, within one, where decode reads the selector. -/
theorem decode_encode {i : Instr} (hi : i.wellFormed = true) : decode (encode i) = some i := by
  cases i with
  | cls | ret => rfl
  | jp | call | ldI | jpV0 | seImm | sneImm | ldImm | addImm | rnd | seReg | sneReg => simp [encode, decode]
  | drw x y n =>
    have hn : n < 16 := of_decide_eq_true hi
    simp [encode, decode, Nat.mod_eq_of_lt hn]
  | ldReg | orReg | andReg | xorReg | addReg | subReg | shr | subnReg | shl => simp [encode, decode, decode8]
  | skp | sknp => simp [encode, decode, decodeE]
  | ldVxDT | ldVxK | ldDTVx | ldSTVx | addI | ldF | ldB | storeRegs | loadRegs => simp [encode, decode, decodeF]

/-- Settles O1: decode reads back the fields encode has written. -/
theorem decodeOfEncodeIsTheInstruction : Obligations.DecodeOfEncodeIsTheInstruction := fun _ => decode_encode

/-! ## Encode of decode (R84, R85) -/

/-- What decode's branches keep: an instruction answered for `w` is well-formed and `w` is its word. -/
def Sound (w : Word) (o : Option Instr) : Prop := ∀ i ∈ o, encode i = w ∧ i.wellFormed = true

theorem sound_none (w : Word) : Sound w none := nofun

theorem sound_some {w : Word} {i : Instr} (he : encode i = w) (hi : i.wellFormed = true) : Sound w (some i) := by
  rintro _ ⟨⟩
  exact ⟨he, hi⟩

theorem sound_ite {w : Word} {p : Prop} [Decidable p] {o o' : Option Instr} (hp : p → Sound w o)
    (hn : ¬ p → Sound w o') : Sound w (if p then o else o') := iteInduction hp hn

theorem decode0_sound (w : Word) : Sound w (decode0 w) :=
  sound_ite (fun h => sound_some h.symm rfl) fun _ => sound_ite (fun h => sound_some h.symm rfl) fun _ => sound_none w

/-- Category 0x8 fixes n. -/
theorem decode8_sound {w : Word} (hc : catOf w = 0x8#4) : Sound w (decode8 w) := by
  repeat refine sound_ite (fun hn => sound_some (encXYN_of_cat hc hn) rfl) fun _ => ?_
  exact sound_none w

/-- Category 0xE fixes nn. -/
theorem decodeE_sound {w : Word} (hc : catOf w = 0xE#4) : Sound w (decodeE w) := by
  repeat refine sound_ite (fun hf => sound_some (encXFN_of_cat hc hf) rfl) fun _ => ?_
  exact sound_none w

/-- Category 0xF fixes nn. -/
theorem decodeF_sound {w : Word} (hc : catOf w = 0xF#4) : Sound w (decodeF w) := by
  repeat refine sound_ite (fun hf => sound_some (encXFN_of_cat hc hf) rfl) fun _ => ?_
  exact sound_none w

/-- Branch by branch, in decode's order; the last one is category 0xF, which the other fifteen leave. -/
theorem decode_sound (w : Word) : Sound w (decode w) := by
  refine sound_ite (fun _ => decode0_sound w) fun h0 => ?_
  refine sound_ite (fun hc => sound_some (encNNN_of_cat hc) rfl) fun h1 => ?_
  refine sound_ite (fun hc => sound_some (encNNN_of_cat hc) rfl) fun h2 => ?_
  refine sound_ite (fun hc => sound_some (encXNN_of_cat hc) rfl) fun h3 => ?_
  refine sound_ite (fun hc => sound_some (encXNN_of_cat hc) rfl) fun h4 => ?_
  refine sound_ite (fun hc => ?_) fun h5 => ?_
  · exact sound_ite (fun hn => sound_some (encXYN_of_cat hc hn) rfl) fun _ => sound_none w
  refine sound_ite (fun hc => sound_some (encXNN_of_cat hc) rfl) fun h6 => ?_
  refine sound_ite (fun hc => sound_some (encXNN_of_cat hc) rfl) fun h7 => ?_
  refine sound_ite decode8_sound fun h8 => ?_
  refine sound_ite (fun hc => ?_) fun h9 => ?_
  · exact sound_ite (fun hn => sound_some (encXYN_of_cat hc hn) rfl) fun _ => sound_none w
  refine sound_ite (fun hc => sound_some (encNNN_of_cat hc) rfl) fun hA => ?_
  refine sound_ite (fun hc => sound_some (encNNN_of_cat hc) rfl) fun hB => ?_
  refine sound_ite (fun hc => sound_some (encXNN_of_cat hc) rfl) fun hC => ?_
  refine sound_ite (fun hc => ?_) fun hD => ?_
  · exact sound_some (encXYN_of_cat hc (by simp)) (decide_eq_true (nOf w).isLt)
  exact sound_ite decodeE_sound fun hE => decodeF_sound (by bv_omega)

/-- Settles O2: every branch of decode answers an instruction whose word is the one read. -/
theorem decodedWordIsItsEncoding : Obligations.DecodedWordIsItsEncoding := decode_sound

/-! ## A word under a mask (R85): the pattern is the format's word with every operand 0 -/

theorem decode_of_encode_eq {w : Word} {i : Instr} (hi : i.wellFormed = true) (h : encode i = w) : decode w = some i :=
  h ▸ decode_encode hi

theorem catOf_and (w m : Word) : catOf (w &&& m) = catOf w &&& catOf m := BitVec.extractLsb'_and ..
theorem nOf_and (w m : Word) : nOf (w &&& m) = nOf w &&& nOf m := BitVec.extractLsb'_and ..
theorem nnOf_and (w m : Word) : nnOf (w &&& m) = nnOf w &&& nnOf m := BitVec.extractLsb'_and ..

/-- A mask that covers a field hides nothing of it. -/
theorem catOf_of_mask {w m p : Word} (h : w &&& m = p) (hm : catOf m = BitVec.allOnes 4) : catOf w = catOf p := by
  rw [← h, catOf_and, hm, BitVec.and_allOnes]

theorem nOf_of_mask {w m p : Word} (h : w &&& m = p) (hm : nOf m = BitVec.allOnes 4) : nOf w = nOf p := by
  rw [← h, nOf_and, hm, BitVec.and_allOnes]

theorem nnOf_of_mask {w m p : Word} (h : w &&& m = p) (hm : nnOf m = BitVec.allOnes 8) : nnOf w = nnOf p := by
  rw [← h, nnOf_and, hm, BitVec.and_allOnes]

theorem encNNN_of_mask {w : Word} {c : BitVec 4} (h : w &&& 0xF000#16 = encNNN c 0) : encNNN c (nnnOf w) = w :=
  encNNN_of_cat ((catOf_of_mask h rfl).trans (catOf_encNNN c 0))

theorem encXNN_of_mask {w : Word} {c : BitVec 4} (h : w &&& 0xF000#16 = encXNN c 0 0) : encXNN c (xOf w) (nnOf w) = w :=
  encXNN_of_cat ((catOf_of_mask h rfl).trans (catOf_encXNN c 0 0))

theorem encXYN_of_mask {w : Word} {c n : BitVec 4} (h : w &&& 0xF00F#16 = encXYN c 0 0 n) :
    encXYN c (xOf w) (yOf w) n = w :=
  encXYN_of_cat ((catOf_of_mask h rfl).trans (catOf_encXYN c 0 0 n)) ((nOf_of_mask h rfl).trans (nOf_encXYN c 0 0 n))

/-- DXYN fixes no selector: its n is an operand (R84). -/
theorem encXYN_of_mask_cat {w : Word} {c : BitVec 4} (h : w &&& 0xF000#16 = encXYN c 0 0 0) :
    encXYN c (xOf w) (yOf w) (BitVec.ofNat 4 (nOf w).toNat) = w :=
  encXYN_of_cat ((catOf_of_mask h rfl).trans (catOf_encXYN c 0 0 0)) (by simp)

theorem encXFN_of_mask {w : Word} {c : BitVec 4} {f : Byte} (h : w &&& 0xF0FF#16 = encXFN c 0 f) :
    encXFN c (xOf w) f = w :=
  encXFN_of_cat ((catOf_of_mask h rfl).trans (catOf_encXNN c 0 f)) ((nnOf_of_mask h rfl).trans (nnOf_encXNN c 0 f))

/-- Settles O3: a word with the fixed bits of a row is the word of the row's instruction with the word's own fields. -/
theorem everyTableRowDecodesWithItsFields : Obligations.EveryTableRowDecodesWithItsFields := fun w =>
  ⟨fun h => decode_of_encode_eq rfl h.symm, fun h => decode_of_encode_eq rfl h.symm,  -- 00E0, 00EE
    fun h => decode_of_encode_eq rfl (encNNN_of_mask h), fun h => decode_of_encode_eq rfl (encNNN_of_mask h),  -- 1NNN, 2NNN
    fun h => decode_of_encode_eq rfl (encXNN_of_mask h), fun h => decode_of_encode_eq rfl (encXNN_of_mask h),  -- 3XNN, 4XNN
    fun h => decode_of_encode_eq rfl (encXYN_of_mask h), fun h => decode_of_encode_eq rfl (encXNN_of_mask h),  -- 5XY0, 6XNN
    fun h => decode_of_encode_eq rfl (encXNN_of_mask h), fun h => decode_of_encode_eq rfl (encXYN_of_mask h),  -- 7XNN, 8XY0
    fun h => decode_of_encode_eq rfl (encXYN_of_mask h), fun h => decode_of_encode_eq rfl (encXYN_of_mask h),  -- 8XY1, 8XY2
    fun h => decode_of_encode_eq rfl (encXYN_of_mask h), fun h => decode_of_encode_eq rfl (encXYN_of_mask h),  -- 8XY3, 8XY4
    fun h => decode_of_encode_eq rfl (encXYN_of_mask h), fun h => decode_of_encode_eq rfl (encXYN_of_mask h),  -- 8XY5, 8XY6
    fun h => decode_of_encode_eq rfl (encXYN_of_mask h), fun h => decode_of_encode_eq rfl (encXYN_of_mask h),  -- 8XY7, 8XYE
    fun h => decode_of_encode_eq rfl (encXYN_of_mask h), fun h => decode_of_encode_eq rfl (encNNN_of_mask h),  -- 9XY0, ANNN
    fun h => decode_of_encode_eq rfl (encNNN_of_mask h), fun h => decode_of_encode_eq rfl (encXNN_of_mask h),  -- BNNN, CXNN
    fun h => decode_of_encode_eq (decide_eq_true (nOf w).isLt) (encXYN_of_mask_cat h),  -- DXYN
    fun h => decode_of_encode_eq rfl (encXFN_of_mask h), fun h => decode_of_encode_eq rfl (encXFN_of_mask h),  -- EX9E, EXA1
    fun h => decode_of_encode_eq rfl (encXFN_of_mask h), fun h => decode_of_encode_eq rfl (encXFN_of_mask h),  -- FX07, FX0A
    fun h => decode_of_encode_eq rfl (encXFN_of_mask h), fun h => decode_of_encode_eq rfl (encXFN_of_mask h),  -- FX15, FX18
    fun h => decode_of_encode_eq rfl (encXFN_of_mask h), fun h => decode_of_encode_eq rfl (encXFN_of_mask h),  -- FX1E, FX29
    fun h => decode_of_encode_eq rfl (encXFN_of_mask h), fun h => decode_of_encode_eq rfl (encXFN_of_mask h),  -- FX33, FX55
    fun h => decode_of_encode_eq rfl (encXFN_of_mask h)⟩  -- FX65

/-! ## The rows exclude each other (R85) -/

/-- On some bit that both rows fix, their patterns differ. -/
def OpRow.Conflict (r r' : OpRow) : Prop := r.pattern &&& r'.mask ≠ r'.pattern &&& r.mask

theorem OpRow.Conflict.symm {r r' : OpRow} (h : r.Conflict r') : r'.Conflict r := Ne.symm h

theorem OpRow.Conflict.not_fits {r r' : OpRow} (hc : r.Conflict r') {w : Word} (h : r.fits w = true) :
    r'.fits w ≠ true := by
  intro h'
  have h : w &&& r.mask = r.pattern := eq_of_beq h
  have h' : w &&& r'.mask = r'.pattern := eq_of_beq h'
  apply hc
  rw [← h, ← h', BitVec.and_assoc, BitVec.and_assoc, BitVec.and_comm r.mask]

theorem opcodeTable_pairwise : opcodeTable.Pairwise OpRow.Conflict := by
  unfold OpRow.Conflict
  decide

/-- Settles O5: two rows that are not the same conflict. -/
theorem noWordFitsTwoTableRows : Obligations.NoWordFitsTwoTableRows := by
  intro w r r' hr hr' h h'
  by_contra hne
  have : Std.Symm OpRow.Conflict := ⟨fun _ _ => OpRow.Conflict.symm⟩
  exact (opcodeTable_pairwise.forall hr hr' hne).not_fits h h'

/-! ## The words that are no instruction (R86) -/

theorem catOf_eq_iff {w : Word} {c : BitVec 4} : catOf w = c ↔ w.toNat / 4096 = c.toNat := by
  rw [← BitVec.toNat_inj, catOf_toNat]
  omega

theorem nOf_eq_iff {w : Word} {n : BitVec 4} : nOf w = n ↔ w.toNat % 16 = n.toNat := by
  rw [← BitVec.toNat_inj, nOf_toNat]

theorem nnOf_eq_iff {w : Word} {f : Byte} : nnOf w = f ↔ w.toNat % 256 = f.toNat := by
  rw [← BitVec.toNat_inj, nnOf_toNat]

/-- A branch that answers an instruction leaves `none` to the others. -/
theorem ite_some_eq_none_iff {p : Prop} [Decidable p] {i : Instr} {o : Option Instr} :
    (if p then some i else o) = none ↔ ¬ p ∧ o = none := by
  split <;> simp [*]

theorem decode0_eq_none_iff {w : Word} : decode0 w = none ↔ w ≠ 0x00E0#16 ∧ w ≠ 0x00EE#16 := by
  simp [decode0, ite_some_eq_none_iff]

theorem decode8_eq_none_iff {w : Word} : decode8 w = none ↔ w.toNat % 16 ∈ [0x8, 0x9, 0xA, 0xB, 0xC, 0xD, 0xF] := by
  simp only [decode8, ite_some_eq_none_iff, nOf_eq_iff, BitVec.toNat_ofNat, List.mem_cons, List.not_mem_nil,
    or_false, and_true]
  omega

theorem decodeE_eq_none_iff {w : Word} : decodeE w = none ↔ w.toNat % 256 ∉ [0x9E, 0xA1] := by
  simp [decodeE, nnOf_eq_iff, ite_some_eq_none_iff]

theorem decodeF_eq_none_iff {w : Word} :
    decodeF w = none ↔ w.toNat % 256 ∉ [0x07, 0x0A, 0x15, 0x18, 0x1E, 0x29, 0x33, 0x55, 0x65] := by
  simp [decodeF, nnOf_eq_iff, ite_some_eq_none_iff]

/-- Only the categories with a selector leave words over. -/
theorem decode_eq_none_iff {w : Word} : decode w = none ↔
    (catOf w = 0x0#4 ∧ decode0 w = none) ∨ (catOf w = 0x5#4 ∧ nOf w ≠ 0x0#4) ∨ (catOf w = 0x8#4 ∧ decode8 w = none) ∨
    (catOf w = 0x9#4 ∧ nOf w ≠ 0x0#4) ∨ (catOf w = 0xE#4 ∧ decodeE w = none) ∨ (catOf w = 0xF#4 ∧ decodeF w = none) := by
  unfold decode
  generalize catOf w = c
  obtain ⟨c⟩ := c
  fin_cases c <;> simp

/-- Settles O4: the words of R86's table, field by field, are those that decode's branches leave over. -/
theorem unlistedWordsAreInvalid : Obligations.UnlistedWordsAreInvalid := fun _ =>
  decode_eq_none_iff.trans <|
    or_congr (and_congr catOf_eq_iff decode0_eq_none_iff) <|
    or_congr (and_congr catOf_eq_iff (not_congr nOf_eq_iff)) <|
    or_congr (and_congr catOf_eq_iff decode8_eq_none_iff) <|
    or_congr (and_congr catOf_eq_iff (not_congr nOf_eq_iff)) <|
    or_congr (and_congr catOf_eq_iff decodeE_eq_none_iff) (and_congr catOf_eq_iff decodeF_eq_none_iff)

/-! ## Ground words (R84) -/

/-- Settles O6: the words are closed, so decode computes. -/
theorem knownWordsDecode : Obligations.KnownWordsDecode := by
  unfold Obligations.KnownWordsDecode
  decide

end Sys2Proof
end

section
/-!
PROOFS. A step by what it fetches (R80, R81, R86): one equation for a word that decodes, one for an invalid word, one for a
failed fetch. Nothing is refused, the word the host places is the one fetched, and Step(RND) masks the host's byte.
-/

namespace Sys2Proof

/-! ## The host's reading of a word (R88) -/

/-- A whole word has no bits to cut off. -/
theorem ofNat_toNat_mod (w : Word) : BitVec.ofNat 16 (w.toNat % 2 ^ 16) = w := by
  rw [Nat.mod_eq_of_lt w.isLt, BitVec.ofNat_toNat, BitVec.setWidth_eq]

/-- The host's reading of a whole word is decode's (R88). -/
theorem decodeTableWord_toNat (w : Word) : decodeTableWord 16 w.toNat = decode w := by
  simp only [decodeTableWord, ofNat_toNat_mod, bytesOfWord, decodeBytes, wordOfBytes_hi_lo]
  cases decode w <;> rfl

end Sys2Proof

namespace Sys2Proof.Machine

/-! ## The three ends of a step -/

theorem step_of_decode {s : State} {i : Instr} (hr : inRange s.pc.toNat 2 = true) (hd : decode s.wordAtPC = some i) :
    step s = exec i s.advance := by
  simp only [step, fetch_ok.2 ⟨hr, rfl, rfl⟩, hd]

/-- The error's `at` is PC at the start: the fetch's advance is taken back (R210). -/
theorem step_of_invalid {s : State} (hr : inRange s.pc.toNat 2 = true) (hd : decode s.wordAtPC = none) :
    step s = .fault (.invalidOpcode s.pc s.wordAtPC) := by
  simp only [step, fetch_ok.2 ⟨hr, rfl, rfl⟩, hd, raise, State.instrAddr, State.advance_pc, BitVec.add_sub_cancel,
    faultOf]

theorem step_of_no_fetch {s : State} (hr : inRange s.pc.toNat 2 = false) :
    step s = .fault (.memRange s.pc s.pc.toNat 2) := by
  simp only [step, fetch_error.2 ⟨hr, rfl⟩, raiseInFetch, faultOf]

/-- Settles O7: the three equations. -/
theorem stepRunsTheDecodedInstruction : Obligations.StepRunsTheDecodedInstruction := fun _ =>
  ⟨fun _ => step_of_decode, step_of_invalid, step_of_no_fetch⟩

/-! ## A placed word -/

/-- A word stored at PC is the word at PC: its two bytes stand in the order the fetch reads them (R55, R81). -/
theorem wordAtPC_setBytes {s : State} (w : Word) (hwf : s.mem.wf = true) (hr : inRange s.pc.toNat 2 = true) :
    State.wordAtPC { s with mem := s.mem.setBytes s.pc.toNat (bytesOfWord w) } = w := by
  have hfit : s.pc.toNat + (bytesOfWord w).length ≤ Config.memSize := ((inRange_iff _ _).1 hr).2
  have hhi := Memory.get_setBytes_inside hwf hfit (Nat.zero_lt_succ 1)
  have hlo := Memory.get_setBytes_inside hwf hfit (Nat.lt_succ_self 1)
  exact (congrArg₂ wordOfBytes hhi hlo).trans (wordOfBytes_hi_lo w)

theorem placeWord_of_inRange {s : State} (w : Word) (hr : inRange s.pc.toNat 2 = true) :
    s.placeWord w = { s with mem := s.mem.setBytes s.pc.toNat (bytesOfWord w) } := if_pos hr

/-- Where no fetch is possible the word is placed as if PC stood at PROGRAM_START. -/
theorem placeWord_of_not_inRange {s : State} (w : Word) (hr : inRange s.pc.toNat 2 = false) :
    s.placeWord w = (s.setPC Config.programStart).placeWord w :=
  (if_neg (Bool.eq_false_iff.1 hr)).trans (placeWord_of_inRange (s := s.setPC Config.programStart) w rfl).symm

/-- The next fetch reads the placed word, whatever PC was. -/
theorem placeWord_fetched {s : State} (w : Word) (hwf : s.mem.wf = true) :
    inRange (s.placeWord w).pc.toNat 2 = true ∧ (s.placeWord w).wordAtPC = w := by
  cases hr : inRange s.pc.toNat 2 with
  | true =>
    rw [placeWord_of_inRange w hr]
    exact ⟨hr, wordAtPC_setBytes w hwf hr⟩
  | false =>
    rw [placeWord_of_not_inRange w hr, placeWord_of_inRange w rfl]
    exact ⟨rfl, wordAtPC_setBytes (s := s.setPC _) w hwf rfl⟩

theorem withFetchWord_toNat (s : State) (w : Word) : s.withFetchWord 16 w.toNat = s.placeWord w := by
  rw [State.withFetchWord, ofNat_toNat_mod]

/-- Settles O8: the step fetches the placed word, and placing it at PC writes memory only. -/
theorem placedWordIsExecuted : Obligations.PlacedWordIsExecuted := by
  intro s w i hwf hd
  rw [decodeTableWord_toNat] at hd
  rw [withFetchWord_toNat]
  obtain ⟨hr, hw⟩ := placeWord_fetched w hwf
  refine ⟨step_of_decode hr (hw.symm ▸ hd), fun hpc => ?_⟩
  rw [placeWord_of_inRange w hpc]

/-! ## Nothing is refused (R87) -/

/-- A meaning that can fail answers a next state or raises an error; the others answer a next state. -/
theorem exec_ne_refused (i : Instr) (s : State) (r : Refusal) : exec i s ≠ .refused r := by
  cases i with
  | ret | call | drw | skp | sknp | ldVxK | ldB | storeRegs | loadRegs =>
    simp only [exec, execRet, execCall, execDrw, execSkp, execSknp, execLdVxK, execLdB, execStoreRegs, execLoadRegs]
    split <;> nofun
  | _ => nofun

theorem step_ne_refused (s : State) (r : Refusal) : step s ≠ .refused r := by
  cases hr : inRange s.pc.toNat 2 with
  | false => exact step_of_no_fetch hr ▸ nofun
  | true =>
    cases hd : decode s.wordAtPC with
    | none => exact step_of_invalid hr hd ▸ nofun
    | some i => exact step_of_decode hr hd ▸ exec_ne_refused i s.advance r

/-- Settles O9: no meaning refuses, and a step runs a meaning or ends with an error. -/
theorem nothingIsRefused : Obligations.NothingIsRefused := fun i s r => ⟨exec_ne_refused i s r, step_ne_refused s r⟩

/-! ## Step(RND) on CXNN (R151, R224) -/

theorem hostOp_step_of_next {s t : State} {rnd : Byte} (h : step (s.withRnd rnd) = .next t) :
    hostOp (.step rnd) s = (.ok, { t with rndIn := s.rndIn }) := by
  simp only [hostOp, stepWith, h]

/-- Settles O17: the step runs CXNN on the state that holds the host's byte, and the byte's place is given back. -/
theorem randomStepMasksTheHostsByte : Obligations.RandomStepMasksTheHostsByte := by
  intro rnd s x nn hr hd
  have hstep : step (s.withRnd rnd) = exec (.rnd x nn) (s.withRnd rnd).advance := step_of_decode hr hd
  refine ⟨_, hostOp_step_of_next hstep, rfl, ?_, fun r hne => ?_⟩
  · exact (reg_setReg _ x x _).trans (if_pos rfl)
  · exact (reg_setReg _ x r _).trans (if_neg hne)

end Sys2Proof.Machine
end

section
/-!
PROOFS. The display instructions (R100 to R102). What O32 says of DXYN is read as one relation between the states before and
after it, `Drawn`; XOR with the same bits twice is the identity, and a bit outside the clipped box changes no pixel.
-/

namespace Sys2Proof.Machine

/-! ## 00E0 (R100) -/

/-- Settles O31: the display becomes the blank raster of its own size. -/
theorem clearZeroesEveryPixel : Obligations.ClearZeroesEveryPixel :=
  ⟨⟨by decide, decode_encode rfl⟩, fun _ => ⟨_, rfl, rfl, rfl, fun c r _ => Raster.pixel_blank c r⟩⟩

/-! ## DXYN (R101, R102) -/

/-- A set pixel is on the display. -/
theorem onDisplay_of_pixel {d : Display} {c r : Nat} (hp : d.pixel c r = true) : onDisplay d c r :=
  Raster.lt_of_pixel hp

theorem Display.pixel_of_not_onDisplay {d : Display} {c r : Nat} (ho : ¬ onDisplay d c r) : d.pixel c r = false :=
  Bool.eq_false_iff.2 fun hp => ho (onDisplay_of_pixel hp)

theorem onDisplay_congr {d e : Display} (hs : d.size = e.size) (c r : Nat) : onDisplay d c r ↔ onDisplay e c r := by
  rw [onDisplay, onDisplay, hs]

theorem spriteBit_iff {s : State} {x y : Reg} {n c r : Nat} : spriteBit s x y n c r = true ↔
    s.startCol x ≤ c ∧ c < s.startCol x + 8 ∧ s.startRow y ≤ r ∧ r < s.startRow y + n ∧
      (s.mem.get (s.i.toNat + (r - s.startRow y))).getLsbD (s.startCol x + 7 - c) = true := by
  simp [spriteBit, and_assoc]

/-- A drawing from `s` to `t`: the sprite's rows are not written, the pixels are XORed with its bits, and VF says whether a
set pixel met a 1 (R101). -/
structure Drawn (x y : Reg) (n : Nat) (s t : State) : Prop where
  rows : inRange s.i.toNat n = true
  mem : t.mem = s.mem
  i : t.i = s.i
  size : t.disp.size = s.disp.size
  pixel : ∀ c r, onDisplay s.disp c r → t.disp.pixel c r = (s.disp.pixel c r ^^ spriteBit s x y n c r)
  hit : (∃ c r, onDisplay s.disp c r ∧ s.disp.pixel c r = true ∧ spriteBit s x y n c r = true) → t.reg VF = 1
  miss : (∀ c r, onDisplay s.disp c r → s.disp.pixel c r = true → spriteBit s x y n c r = false) → t.reg VF = 0

/-- Whatever DXYN answers is a drawing. -/
theorem exec_drw_drawn {x y : Reg} {n : Nat} {s t : State} (h : exec (.drw x y n) s = .next t) : Drawn x y n s t := by
  obtain ⟨hrows, p, -, rfl⟩ := exec_drw_next h
  obtain ⟨t, ht, -, -, hsize, hpixel, hhit, hmiss⟩ := (drawXorsTheSprite x y n s).1 ((inRange_iff _ _).1 hrows)
  cases ht.symm.trans h
  exact ⟨hrows, rfl, rfl, hsize, hpixel, hhit, hmiss⟩

section Drawn

variable {x y : Reg} {n : Nat} {s t u : State}

theorem Drawn.reg_VF_iff (h : Drawn x y n s t) : t.reg VF = 1 ↔
    ∃ c r, onDisplay s.disp c r ∧ s.disp.pixel c r = true ∧ spriteBit s x y n c r = true := by
  refine ⟨fun hvf => ?_, h.hit⟩
  by_contra hno
  have hvf0 : t.reg VF = 0 := h.miss fun c r ho hp => Bool.eq_false_iff.2 fun hb => hno ⟨c, r, ho, hp, hb⟩
  exact absurd (hvf.symm.trans hvf0) (by decide)

/-- At the same position the drawn state still holds the same sprite. -/
theorem Drawn.spriteBit_eq (h : Drawn x y n s t) (hx : t.reg x = s.reg x) (hy : t.reg y = s.reg y) (c r : Nat) :
    spriteBit t x y n c r = spriteBit s x y n c r := by
  have hcol : t.startCol x = s.startCol x := by rw [State.startCol, State.startCol, hx, h.size]
  have hrow : t.startRow y = s.startRow y := by rw [State.startRow, State.startRow, hy, h.size]
  rw [spriteBit, spriteBit, hcol, hrow, h.mem, h.i]

/-- A pixel is turned on exactly when it is clear and meets a 1 of the sprite. -/
theorem Drawn.turned_on_iff (h : Drawn x y n s t) {c r : Nat} (ho : onDisplay s.disp c r) :
    (s.disp.pixel c r = false ∧ t.disp.pixel c r = true) ↔
      t.disp.pixel c r = true ∧ spriteBit s x y n c r = true := by
  rw [h.pixel c r ho]
  cases s.disp.pixel c r <;> simp

/-- XOR with the same sprite twice is the identity (R102 (a)). -/
theorem Drawn.twice_disp (h : Drawn x y n s t) (h' : Drawn x y n t u) (hx : t.reg x = s.reg x)
    (hy : t.reg y = s.reg y) : u.disp = s.disp := by
  refine Display.ext_pixel (h'.size.trans h.size) fun c r hc hr => ?_
  have ho : onDisplay s.disp c r := ⟨hc, hr⟩
  rw [h'.pixel c r ((onDisplay_congr h.size c r).2 ho), h.pixel c r ho, h.spriteBit_eq hx hy, Bool.xor_assoc,
    Bool.xor_self, Bool.xor_false]

/-- The second drawing collides on the pixels the first turned on (R102 (a), log entry 20). -/
theorem Drawn.twice_reg_VF_iff (h : Drawn x y n s t) (h' : Drawn x y n t u) (hx : t.reg x = s.reg x)
    (hy : t.reg y = s.reg y) : u.reg VF = 1 ↔
      ∃ c r, onDisplay s.disp c r ∧ s.disp.pixel c r = false ∧ t.disp.pixel c r = true := by
  rw [h'.reg_VF_iff]
  refine exists₂_congr fun c r => ?_
  rw [onDisplay_congr h.size, h.spriteBit_eq hx hy]
  exact and_congr_right fun ho => (h.turned_on_iff ho).symm

/-- A drawing changes only pixels on the display that meet a 1 of the sprite. -/
theorem Drawn.changed (h : Drawn x y n s t) {c r : Nat} (hne : t.disp.pixel c r ≠ s.disp.pixel c r) :
    onDisplay s.disp c r ∧ spriteBit s x y n c r = true := by
  have ho : onDisplay s.disp c r := by
    by_contra ho
    have ht := Display.pixel_of_not_onDisplay (mt (onDisplay_congr h.size c r).1 ho)
    exact hne (ht.trans (Display.pixel_of_not_onDisplay ho).symm)
  refine ⟨ho, ?_⟩
  by_contra hb
  rw [h.pixel c r ho, Bool.eq_false_iff.2 hb, Bool.xor_false] at hne
  exact hne rfl

end Drawn

/-- Settles O33: the second draw reads the same rows, so it undoes the first; on a clear display the first turns on exactly
the sprite's pixels. -/
theorem drawTwiceRestoresTheDisplay : Obligations.DrawTwiceRestoresTheDisplay := by
  intro x y n s t h hx hy
  have hst := exec_drw_drawn h
  have hu := exec_drw_of_inRange x y (n := n) (s := t) (hst.i ▸ hst.rows)
  have htu := exec_drw_drawn hu
  have hvf := hst.twice_reg_VF_iff htu hx hy
  refine ⟨_, hu, hst.twice_disp htu hx hy, hvf, fun hclear => ⟨?_, hvf.trans (exists₂_congr fun c r => ?_)⟩⟩
  · refine hst.miss fun c r ho hp => ?_
    rw [hclear c r ho] at hp
    exact Bool.noConfusion hp
  · refine and_congr_right fun ho => ?_
    rw [hst.pixel c r ho, hclear c r ho, Bool.false_xor]
    exact and_iff_right rfl

/-- Settles O34: a changed pixel is on the display and is one of the sprite's. -/
theorem drawStaysInsideItsBox : Obligations.DrawStaysInsideItsBox := by
  intro x y n s t c r h hne
  obtain ⟨⟨hw, hh⟩, hb⟩ := (exec_drw_drawn h).changed hne
  obtain ⟨hc, hc', hr, hr', -⟩ := spriteBit_iff.1 hb
  exact ⟨hc, Nat.le_min.2 ⟨Nat.le_of_lt_succ hc', Nat.le_sub_one_of_lt hw⟩, hr, Nat.le_min.2 ⟨hr', hh⟩⟩

end Sys2Proof.Machine
end

section
/-!
PROOFS. The control transfers (R120 to R129): what each writes to PC, the stack under nested calls, and the self-jump as a
fixed point of `step`.
-/

namespace Sys2Proof.Machine

/-- The word of a well-formed instruction has its row's fixed bits and decodes to the instruction (R84, R85). -/
theorem encodedAs_row {i : Instr} (hi : i.wellFormed = true) (hf : Laws.RowFits.Statement i) :
    encodedAs i i.row.pattern i.row.mask :=
  ⟨eq_of_beq hf, decode_encode hi⟩

/-! ## Jumps (R121, R127) -/

/-- An address keeps its value in 16 bits (R83). -/
@[simp] theorem addrOf_toNat (nnn : Addr12) : (addrOf nnn).toNat = nnn.toNat :=
  BitVec.toNat_setWidth_of_le (by decide)

/-- Settles O18: the meaning is one write to PC. -/
theorem jumpGoesToNnn : Obligations.JumpGoesToNnn := fun nnn _ =>
  ⟨encodedAs_row rfl (Laws.RowFits.jp nnn), _, rfl, rfl, addrOf_toNat nnn⟩

theorem regOf_val (nnn : Addr12) : (regOf nnn).val = nnn.toNat / 256 := by
  have := nnn.isLt
  simp only [regOf, BitVec.toFin_extractLsb', Fin.val_ofNat, Nat.shiftRight_eq_div_pow]
  omega

/-- An address and an offset of 8 bits do not overflow 16 bits (R127). -/
theorem jumpTarget_toNat (s : State) (nnn : Addr12) :
    (s.jumpTarget nnn).toNat = nnn.toNat + (s.jumpOffset nnn).toNat := by
  have ha := nnn.isLt
  have ho := (s.jumpOffset nnn).isLt
  simp only [State.jumpTarget, BitVec.toNat_add, addrOf_toNat, BitVec.toNat_setWidth]
  omega

/-- Settles O22: QUIRK selects the offset's register, and the sum does not overflow. -/
theorem jumpOffsetAddsTheQuirkRegister : Obligations.JumpOffsetAddsTheQuirkRegister := by
  intro nnn s
  refine ⟨encodedAs_row rfl (Laws.RowFits.jpV0 nnn), _, rfl, rfl, jumpTarget_toNat_le s nnn, fun hq => ?_,
    fun hq x hx => ?_⟩
  · simp [jumpTarget_toNat, State.jumpOffset, hq]
  · obtain rfl : x = regOf nnn := Fin.ext (hx.trans (regOf_val nnn).symm)
    simp [jumpTarget_toNat, State.jumpOffset, hq]

/-! ## Skips (R123 to R126, R128) -/

/-- Settles O21: each skip is a `skipIf` on its rule's condition. -/
theorem skipsAdvanceOnTheirCondition : Obligations.SkipsAdvanceOnTheirCondition := by
  intro x y nn s
  refine ⟨⟨encodedAs_row rfl (Laws.RowFits.seImm x nn), ?_⟩, ⟨encodedAs_row rfl (Laws.RowFits.sneImm x nn), ?_⟩,
    ⟨encodedAs_row rfl (Laws.RowFits.seReg x y), ?_⟩, ⟨encodedAs_row rfl (Laws.RowFits.sneReg x y), ?_⟩⟩
  · simp [exec, execSeImm, skipIf_eq]
  · simp [exec, execSneImm, skipIf_eq]
  · simp [exec, execSeReg, skipIf_eq]
  · simp [exec, execSneReg, skipIf_eq]

/-! ## Call and return (R120, R122) -/

/-- The state after a call that finds room: PC is pushed and counted, and control is at nnn (R122). -/
def State.called (s : State) (nnn : Addr12) (h : s.sp.val < 16) : State :=
  { s with stack := s.stack.set s.sp.val s.pc h, sp := ⟨s.sp.val + 1, Nat.succ_lt_succ h⟩, pc := addrOf nnn }

/-- The stack after a call: entry SP is the return address, and every other entry is as before. -/
theorem called_get (s : State) (nnn : Addr12) (h : s.sp.val < 16) (k : Fin 16) :
    (s.called nnn h).stack.get k = if k.val = s.sp.val then s.pc else s.stack.get k :=
  (vector_get_set s.stack ⟨s.sp.val, h⟩ k s.pc).trans (if_congr Fin.ext_iff rfl rfl)

theorem exec_call_of_room (nnn : Addr12) {s : State} (h : s.sp.val < 16) :
    exec (.call nnn) s = .next (s.called nnn h) := by
  simp only [exec, execCall, push_ok.2 ⟨h, rfl⟩]
  rfl

theorem exec_call_of_full (nnn : Addr12) {s : State} (h : s.sp.val = 16) :
    exec (.call nnn) s = .fault (.stackOverflow (s.pc - 2)) := by
  simp only [exec, execCall, push_error.2 ⟨Fin.ext h, rfl⟩]
  rfl

/-- Settles O19: with room the call pushes, with a full stack it raises the error. -/
theorem callPushesTheReturnAddress : Obligations.CallPushesTheReturnAddress := by
  intro nnn s
  refine ⟨encodedAs_row rfl (Laws.RowFits.call nnn), fun hs => ?_, fun hs => ?_⟩
  · exact ⟨_, exec_call_of_room nnn hs, rfl, addrOf_toNat nnn, rfl, called_get s nnn hs⟩
  · rw [exec_call_of_full nnn hs]
    exact ⟨rfl, rfl⟩

theorem exec_ret_of_used {s : State} {k : Nat} (hk : k < 16) (hs : s.sp.val = k + 1) :
    exec .ret s = .next { s with sp := ⟨k, Nat.lt_of_lt_of_le hk (by decide)⟩, pc := s.stack[k] } := by
  simp only [exec, execRet, pop_ok.2 ⟨k, hk, hs, rfl, rfl⟩]
  rfl

theorem exec_ret_of_empty {s : State} (h : s.sp.val = 0) : exec .ret s = .fault (.stackUnderflow (s.pc - 2)) := by
  simp only [exec, execRet, pop_error.2 ⟨Fin.ext h, rfl⟩]
  rfl

/-- Settles O20: with an entry in use the return pops it, with none it raises the error. -/
theorem returnPopsTheReturnAddress : Obligations.ReturnPopsTheReturnAddress := by
  refine ⟨encodedAs_row rfl Laws.RowFits.ret, fun s => ⟨fun hs => ?_, fun hs => ?_⟩⟩
  · obtain ⟨k, hk⟩ := Nat.exists_eq_succ_of_ne_zero hs.ne'
    have hlt : k < 16 := by omega
    refine ⟨_, exec_ret_of_used hlt hk, rfl, hk.symm, fun j hj => ?_⟩
    obtain rfl : j = ⟨k, hlt⟩ := Fin.ext hj
    rfl
  · rw [exec_ret_of_empty hs]
    exact ⟨rfl, rfl⟩

/-! ## Nested calls (R129) -/

theorem execAll_cons {i : Instr} {s t : State} (h : exec i s = .next t) (is : List Instr) :
    execAll (i :: is) s = execAll is t := by
  rw [execAll, h]

theorem execAll_append {is js : List Instr} {s t : State} (h : execAll is s = .next t) :
    execAll (is ++ js) s = execAll js t := by
  induction is generalizing s with
  | nil =>
    cases h
    rfl
  | cons i is ih =>
    cases hx : exec i s with
    | next u =>
      rw [execAll_cons hx] at h
      rw [List.cons_append, execAll_cons hx, ih h]
    | fault | refused => simp [execAll, hx] at h

/-- A return undoes the call, whatever has been done to the stack above the call's entry. -/
theorem exec_ret_of_called {s : State} {nnn : Addr12} (h : s.sp.val < 16) {stk : Vector Word 16}
    (ha : AgreeBelow (s.sp.val + 1) stk (s.called nnn h).stack) :
    exec .ret { s.called nnn h with stack := stk } = .next { s with stack := stk } := by
  have htop : stk[s.sp.val] = s.pc :=
    (ha ⟨s.sp.val, h⟩ (Nat.lt_succ_self _)).trans ((called_get s nnn h _).trans (if_pos rfl))
  rw [exec_ret_of_used h rfl, htop]
  rfl

/-- Settles O23, by induction on the calls: the inner ones leave the first one's entry alone, so the last return undoes the
first call. -/
theorem nestedCallsReturnInOrder : Obligations.NestedCallsReturnInOrder := by
  intro targets
  induction targets with
  | nil => exact fun s _ => ⟨s, rfl, rfl, fun _ _ => rfl⟩
  | cons nnn targets ih =>
    intro s hfit
    rw [List.length_cons] at hfit
    have hs : s.sp.val < 16 := by omega
    have hinner : s.sp.val + 1 + targets.length ≤ 16 := by omega
    obtain ⟨t, hrun, ht, ha⟩ := ih (s.called nnn hs) hinner
    refine ⟨{ s with stack := t.stack }, ?_, rfl, fun k hk => ?_⟩
    · have hret : exec .ret t = .next { s with stack := t.stack } := ht ▸ exec_ret_of_called hs ha
      calc execAll (.call nnn :: (targets.map .call ++ List.replicate (targets.length + 1) .ret)) s
        _ = execAll (targets.map .call ++ List.replicate targets.length .ret ++ [.ret]) (s.called nnn hs) := by
          rw [execAll_cons (exec_call_of_room nnn hs), List.replicate_succ', List.append_assoc]
        _ = execAll [.ret] t := execAll_append hrun
        _ = .next { s with stack := t.stack } := execAll_cons hret []
    · exact (ha k (Nat.lt_succ_of_lt hk)).trans ((called_get s nnn hs k).trans (if_neg hk.ne))

/-! ## The idle loop (R121, R252) -/

theorem idle_iff {s : State} : idle s = true ↔ s.pc.toNat ≤ 0xFFE ∧ s.wordAtPC = 0x1000#16 + s.pc := by
  simp [idle]

/-- The word of a jump to an address below 0x1000 (R84). -/
theorem encode_jp_setWidth {a : Word} (ha : a.toNat ≤ 0xFFE) : encode (.jp (a.setWidth 12)) = 0x1000#16 + a := by
  apply BitVec.eq_of_toNat_eq
  rw [encode, encNNN_toNat]
  bv_omega

/-- The jump's target is the address itself. -/
theorem addrOf_setWidth {a : Word} (ha : a.toNat ≤ 0xFFE) : addrOf (a.setWidth 12) = a := by
  apply BitVec.eq_of_toNat_eq
  rw [addrOf_toNat]
  bv_omega

/-- A step of an idle loop jumps back to where it was fetched (R121). -/
theorem step_of_idle {s : State} (h : idle s = true) : step s = .next s := by
  obtain ⟨hpc, hword⟩ := idle_iff.1 h
  have hr : inRange s.pc.toNat 2 = true := (inRange_iff _ _).2 (by simp only [Config.memSize]; omega)
  have hd : decode s.wordAtPC = some (.jp (s.pc.setWidth 12)) :=
    decode_of_encode_eq rfl ((encode_jp_setWidth hpc).trans hword.symm)
  rw [step_of_decode hr hd, exec, execJp, addrOf_setWidth hpc]
  rfl

/-- A run from a fixed point of the step stays there. -/
theorem run_of_fixed {M : Host.Core} {s : M.State} (h : M.step s = .next s) (k : Nat) : M.run k s = .next s := by
  induction k with
  | zero => rfl
  | succ k ih => simpa only [Host.Core.run, h] using ih

/-- Settles O39: an idle state steps to itself. -/
theorem idleLoopNeverChangesTheState : Obligations.IdleLoopNeverChangesTheState := fun _ k h =>
  run_of_fixed (step_of_idle h) k

end Sys2Proof.Machine
end

section
/-!
PROOFS. The register arithmetic and logic (R140 to R150, R153): what each meaning writes to V[x] and VF, and its frame.
-/

namespace Sys2Proof.Machine

/-! ## One register written (R140 to R145) -/

/-- A meaning that is one write of V[x] completes, V[x] is as written, and the rest of the state stays. -/
theorem exec_of_setReg {i : Instr} {x : Reg} {s : State} {b : Byte} {P : Byte → Prop}
    (h : exec i s = .next (s.setReg x b)) (hP : P b) :
    ∃ t, exec i s = .next t ∧ t = { s with v := t.v } ∧ P (t.reg x) ∧ ∀ r, r ≠ x → t.reg r = s.reg r := by
  refine ⟨_, h, rfl, ?_, fun r hr => ?_⟩
  · simpa using hP
  · simp [hr]

/-- Settles O12: each is one write of V[x]. -/
theorem loadAddAndCopyWriteVxOnly : Obligations.LoadAddAndCopyWriteVxOnly := fun x y nn s =>
  ⟨⟨encodedAs_row rfl (Laws.RowFits.ldImm x nn), exec_of_setReg (P := (· = nn)) rfl rfl⟩,
    ⟨encodedAs_row rfl (Laws.RowFits.addImm x nn),
      exec_of_setReg (P := (·.toNat = ((s.reg x).toNat + nn.toNat) % 256)) rfl (BitVec.toNat_ofNat ..)⟩,
    ⟨encodedAs_row rfl (Laws.RowFits.ldReg x y), exec_of_setReg (P := (· = s.reg y)) rfl rfl⟩⟩

/-- Settles O13: each is one write of V[x], with the bits of a bitwise operation. -/
theorem logicWritesVxOnly : Obligations.LogicWritesVxOnly := fun x y s =>
  ⟨exec_of_setReg (P := fun b => ∀ k, b.getLsbD k = ((s.reg x).getLsbD k || (s.reg y).getLsbD k)) rfl
      fun _ => BitVec.getLsbD_or,
    exec_of_setReg (P := fun b => ∀ k, b.getLsbD k = ((s.reg x).getLsbD k && (s.reg y).getLsbD k)) rfl
      fun _ => BitVec.getLsbD_and,
    exec_of_setReg (P := fun b => ∀ k, b.getLsbD k = ((s.reg x).getLsbD k ^^ (s.reg y).getLsbD k)) rfl
      fun _ => BitVec.getLsbD_xor⟩

/-! ## A result and a flag (R146 to R150, R153) -/

/-- A meaning that writes a result and then a flag completes; V[x] is the result unless it is VF, VF is the flag, and the rest
of the state stays. -/
theorem exec_of_setRegFlag {i : Instr} {x : Reg} {s : State} {b : Byte} {c : Bool} {P Q : Byte → Prop}
    (h : exec i s = .next (s.setRegFlag x b c)) (hP : P b) (hQ : Q (flag c)) :
    ∃ t, exec i s = .next t ∧ t = { s with v := t.v } ∧ (x ≠ VF → P (t.reg x)) ∧ Q (t.reg VF) ∧
      ∀ r, r ≠ x → r ≠ VF → t.reg r = s.reg r := by
  refine ⟨_, h, rfl, fun hx => ?_, ?_, fun r hx hf => ?_⟩
  · simpa [hx] using hP
  · simpa using hQ
  · simp [hx, hf]

/-- The flag of a condition. -/
theorem flag_decide (p : Prop) [Decidable p] : flag (decide p) = if p then 1 else 0 := by simp [flag]

/-- The difference of two bytes, modulo 256 (R147, R149). -/
theorem byte_sub_toNat (a b : Byte) : (a - b).toNat = (a.toNat + 256 - b.toNat) % 256 := by bv_omega

/-- Settles O14: each writes its result, and then the flag of the old operands. -/
theorem addAndSubtractSetTheFlag : Obligations.AddAndSubtractSetTheFlag := fun x y s =>
  ⟨exec_of_setRegFlag (P := (·.toNat = ((s.reg x).toNat + (s.reg y).toNat) % 256))
      (Q := (· = if (s.reg x).toNat + (s.reg y).toNat > 255 then 1 else 0)) rfl (BitVec.toNat_ofNat ..) (flag_decide _),
    exec_of_setRegFlag (P := (·.toNat = ((s.reg x).toNat + 256 - (s.reg y).toNat) % 256))
      (Q := (· = if (s.reg x).toNat ≥ (s.reg y).toNat then 1 else 0)) rfl (byte_sub_toNat ..) (flag_decide _),
    exec_of_setRegFlag (P := (·.toNat = ((s.reg y).toNat + 256 - (s.reg x).toNat) % 256))
      (Q := (· = if (s.reg y).toNat ≥ (s.reg x).toNat then 1 else 0)) rfl (byte_sub_toNat ..) (flag_decide _)⟩

/-! ## Shifts (R148, R150) -/

theorem flag_toNat (b : Bool) : (flag b).toNat = b.toNat := by cases b <;> rfl

/-- A flag made of bit k is that binary digit. -/
theorem flag_getLsbD_toNat (a : Byte) (k : Nat) : (flag (a.getLsbD k)).toNat = a.toNat / 2 ^ k % 2 := by
  rw [flag_toNat, BitVec.getLsbD, Nat.toNat_testBit]

theorem flag_lowBit_toNat (a : Byte) : (flag (lowBit a)).toNat = a.toNat % 2 := by
  rw [lowBit, flag_getLsbD_toNat, pow_zero, Nat.div_one]

theorem flag_highBit_toNat (a : Byte) : (flag (highBit a)).toNat = a.toNat / 128 := by
  have ha := a.isLt
  rw [highBit, flag_getLsbD_toNat]
  omega

theorem byte_shiftRight_one_toNat (a : Byte) : (a >>> 1).toNat = a.toNat / 2 := by
  rw [BitVec.toNat_ushiftRight, Nat.shiftRight_one]

theorem byte_shiftLeft_one_toNat (a : Byte) : (a <<< 1).toNat = a.toNat * 2 % 256 := by
  rw [BitVec.toNat_shiftLeft, Nat.shiftLeft_eq, pow_one]

/-- Settles O15: each writes the shifted source, and then the bit shifted out of it. -/
theorem shiftsMoveTheSourceByOne : Obligations.ShiftsMoveTheSourceByOne := by
  intro x y s src hsrc
  obtain rfl : src = s.shiftSource x y := hsrc
  exact ⟨exec_of_setRegFlag (P := (·.toNat = (s.shiftSource x y).toNat / 2))
      (Q := (·.toNat = (s.shiftSource x y).toNat % 2)) rfl (byte_shiftRight_one_toNat _) (flag_lowBit_toNat _),
    exec_of_setRegFlag (P := (·.toNat = (s.shiftSource x y).toNat * 2 % 256))
      (Q := (·.toNat = (s.shiftSource x y).toNat / 128)) rfl (byte_shiftLeft_one_toNat _) (flag_highBit_toNat _)⟩

end Sys2Proof.Machine
end

section
/-!
PROOFS. I and the block moves between registers and memory (R170 to R175): the values written to I, and for each block move its
two ends, in range and out of range.
-/

namespace Sys2Proof.Machine

/-! ## The values of I (R170 to R172) -/

/-- The address of a glyph does not overflow 16 bits (R172). -/
theorem glyphAddr_toNat (s : State) (x : Reg) : (s.glyphAddr x).toNat = (s.reg x).toNat * 5 := by
  have hx := (s.reg x).isLt
  simp only [State.glyphAddr, Config.glyphBytes, BitVec.toNat_ofNat]
  omega

/-- Settles O24: each meaning is one write to I. -/
theorem loadIndexAndGlyphAddress : Obligations.LoadIndexAndGlyphAddress := fun nnn x s =>
  ⟨⟨encodedAs_row rfl (Laws.RowFits.ldI nnn), _, rfl, rfl, addrOf_toNat nnn⟩,
    encodedAs_row rfl (Laws.RowFits.ldF x), _, rfl, rfl, glyphAddr_toNat s x⟩

/-- The flag of FX1E (R171). -/
theorem flag_crosses (a : Word) (b : Byte) :
    flag (crosses a b) = if a.toNat ≤ 0xFFF ∧ a.toNat + b.toNat > 0xFFF then 1 else 0 := by
  rw [crosses, ← Bool.decide_and, flag_decide]

/-- Settles O25: I is written from the old V[x], and VF last. -/
theorem addToIndexReportsTheCrossing : Obligations.AddToIndexReportsTheCrossing := by
  intro x s
  refine ⟨_, rfl, rfl, BitVec.toNat_ofNat .., ?_, fun r hr => ?_⟩
  · simpa using flag_crosses s.i (s.reg x)
  · simp [hr]

/-! ## The two ends of a block move (R53, R54, R57, R212) -/

/-- A meaning that raises an error leaves the state it ran on. -/
theorem fault_and_stateLeft {s : State} {r : Result} {f : Fault} (h : r = .fault f) :
    r = .fault f ∧ stateLeft s r = s := by
  subst h
  exact ⟨rfl, rfl⟩

theorem exec_ldB_of_inRange {x : Reg} {s : State} (hr : inRange s.i.toNat 3 = true) :
    exec (.ldB x) s = .next { s with mem := s.mem.setBytes s.i.toNat (bcd (s.reg x)) } := by
  simp only [exec, execLdB, State.dataAddr, (memWrite_ok (bs := bcd (s.reg x))).2 ⟨hr, rfl⟩]

theorem exec_ldB_of_not_inRange {x : Reg} {s : State} (hr : inRange s.i.toNat 3 = false) :
    exec (.ldB x) s = .fault (.memRange (s.pc - 2) s.i.toNat 3) := by
  simp only [exec, execLdB, State.dataAddr, (memWrite_error (bs := bcd (s.reg x))).2 ⟨hr, rfl⟩]
  rfl

theorem exec_storeRegs_of_inRange {x : Reg} {s : State} (hr : inRange s.i.toNat (x.val + 1) = true) :
    exec (.storeRegs x) s =
      .next (State.advanceI { s with mem := s.mem.setBytes s.i.toNat (s.regs.take (countOf x)) } x) := by
  rw [← regs_take_length s x] at hr
  simp only [exec, execStoreRegs, State.dataAddr, memWrite_ok.2 ⟨hr, rfl⟩]

theorem exec_storeRegs_of_not_inRange {x : Reg} {s : State} (hr : inRange s.i.toNat (x.val + 1) = false) :
    exec (.storeRegs x) s = .fault (.memRange (s.pc - 2) s.i.toNat (x.val + 1)) := by
  rw [← regs_take_length s x] at hr
  simp only [exec, execStoreRegs, State.dataAddr, memWrite_error.2 ⟨hr, rfl⟩, regs_take_length]
  rfl

theorem exec_loadRegs_of_inRange {x : Reg} {s : State} (hr : inRange s.i.toNat (x.val + 1) = true) :
    exec (.loadRegs x) s = .next ((s.setRegsFrom0 (s.mem.getBytes s.i.toNat (x.val + 1))).advanceI x) := by
  simp only [exec, execLoadRegs, State.dataAddr, countOf, memRead_ok.2 ⟨hr, rfl⟩]

theorem exec_loadRegs_of_not_inRange {x : Reg} {s : State} (hr : inRange s.i.toNat (x.val + 1) = false) :
    exec (.loadRegs x) s = .fault (.memRange (s.pc - 2) s.i.toNat (x.val + 1)) := by
  simp only [exec, execLoadRegs, State.dataAddr, countOf, memRead_error.2 ⟨hr, rfl⟩]
  rfl

/-! ## FX33 (R173) -/

/-- The digits of a byte as numbers (R173). -/
theorem bcd_map_toNat (b : Byte) : (bcd b).map BitVec.toNat = [b.toNat / 100, b.toNat / 10 % 10, b.toNat % 10] := by
  have hb := b.isLt
  simp only [bcd, List.map_cons, List.map_nil, BitVec.toNat_ofNat, List.cons.injEq, and_true]
  omega

/-- FX33 stores the k-th digit at I + k (R173). -/
theorem exec_ldB_get_toNat {x : Reg} {s t : State} (hwf : s.mem.wf = true) (h : exec (.ldB x) s = .next t) {k : Nat}
    (hk : k < 3) : (t.mem.get (s.i.toNat + k)).toNat =
      [(s.reg x).toNat / 100, (s.reg x).toNat / 10 % 10, (s.reg x).toNat % 10][k] := by
  obtain ⟨hstored, -⟩ := onlyTheStoredBytesChange (.ldB x) s t hwf h
  simp only [hstored k hk, stored, ← bcd_map_toNat, List.getElem_map]

/-- Settles O26: the digits are stored as one block, checked before it is written. -/
theorem bcdStoresThreeDigits : Obligations.BcdStoresThreeDigits := by
  intro x s hwf
  refine ⟨encodedAs_row rfl (Laws.RowFits.ldB x), fun hr => ?_, fun hr => ?_⟩
  · have h := exec_ldB_of_inRange (x := x) ((inRange_iff _ _).2 hr)
    obtain ⟨-, houtside, -⟩ := onlyTheStoredBytesChange (.ldB x) s _ hwf h
    exact ⟨_, h, rfl, exec_ldB_get_toNat hwf h (k := 0) (by decide), exec_ldB_get_toNat hwf h (k := 1) (by decide),
      exec_ldB_get_toNat hwf h (k := 2) (by decide), houtside⟩
  · exact fault_and_stateLeft (exec_ldB_of_not_inRange (inRange_eq_false hr))

/-! ## FX55 and FX65 (R174, R175) -/

/-- The advance of I after a block move writes I only. -/
theorem advanceI_eq (s : State) (x : Reg) : s.advanceI x = { s with i := (s.advanceI x).i } := by
  unfold State.advanceI
  split <;> rfl

/-- The advance of I past a block inside memory does not overflow 16 bits. -/
theorem advanceI_i_toNat {s : State} {x : Reg} (hfit : s.i.toNat + (x.val + 1) ≤ 4096) :
    (s.advanceI x).i.toNat = if s.quirk = true then s.i.toNat else s.i.toNat + x.val + 1 := by
  rw [State.advanceI_i]
  split
  · rfl
  · simp only [countOf, BitVec.toNat_ofNat]
    omega

/-- Settles O27: the registers are stored as one block, checked before it is written; then I advances. -/
theorem storeRegistersAtIndex : Obligations.StoreRegistersAtIndex := by
  intro x s hwf
  refine ⟨fun hr => ?_, fun hr => ?_⟩
  · have h := exec_storeRegs_of_inRange ((inRange_iff _ _).2 hr)
    obtain ⟨-, houtside, -⟩ := onlyTheStoredBytesChange (.storeRegs x) s _ hwf h
    rw [stored, regs_take_length] at houtside
    refine ⟨_, h, ?_, fun k hk => exec_storeRegs_get hwf h hk, houtside, advanceI_i_toNat hr.2⟩
    rw [State.advanceI_mem]
    exact advanceI_eq _ x
  · exact fault_and_stateLeft (exec_storeRegs_of_not_inRange (inRange_eq_false hr))

/-- A register after a block of n bytes has been loaded from V0 on: the byte at its place, or, past the block, as before. -/
theorem reg_setRegsFrom0_getBytes (s : State) (a n : Nat) (r : Reg) :
    (s.setRegsFrom0 (s.mem.getBytes a n)).reg r = if r.val < n then s.mem.get (a + r.val) else s.reg r := by
  rw [reg_setRegsFrom0]
  split
  case isTrue h =>
    rw [List.getElem?_eq_getElem (by simpa using h), Option.getD_some, Memory.getBytes_getElem]
  case isFalse h => rw [List.getElem?_eq_none (by simpa using h), Option.getD_none]

/-- Settles O28: the block is read whole, loaded from V0 on, and then I advances. -/
theorem loadRegistersFromIndex : Obligations.LoadRegistersFromIndex := by
  intro x s
  refine ⟨fun hr => ?_, fun hr => ?_⟩
  · refine ⟨_, exec_loadRegs_of_inRange ((inRange_iff _ _).2 hr), ?_, fun k hk => ?_, fun k hk => ?_,
      advanceI_i_toNat hr.2⟩
    · rw [State.advanceI_v]
      exact advanceI_eq _ x
    · rw [reg_advanceI, reg_setRegsFrom0_getBytes, if_pos (Nat.lt_succ_of_le hk)]
    · rw [reg_advanceI, reg_setRegsFrom0_getBytes, if_neg (Nat.not_lt_of_le hk)]
  · exact fault_and_stateLeft (exec_loadRegs_of_not_inRange (inRange_eq_false hr))

/-- Settles O29: the store succeeded, so the block is in range for the load, and the load reads what was stored. -/
theorem storeThenLoadRestoresRegisters : Obligations.StoreThenLoadRestoresRegisters := by
  intro x s t v hwf h
  obtain ⟨hr, -⟩ := exec_storeRegs_next h
  obtain ⟨hload, -⟩ := loadRegistersFromIndex x { t with v := v, i := s.i }
  obtain ⟨u, hu, hframe, hget, -⟩ := hload ((inRange_iff _ _).1 hr)
  exact ⟨u, hu, by rw [hframe], fun k hk => (hget k hk).trans (exec_storeRegs_get (t := t) hwf h hk)⟩

end Sys2Proof.Machine
end

section
/-!
PROOFS. The keypad and the timers (R190 to R195): the key skips by the key V[x] names, FX0A by the least released key, the timers
as one write each, and a waiting state as a fixed point of `step`.
-/

namespace Sys2Proof.Machine

/-! ## The two ends of a key skip (R190, R191, R212) -/

theorem exec_skp_of_key {x : Reg} {s : State} {k : Fin 16} (hk : (s.reg x).toNat = k.val) :
    exec (.skp x) s = .next (s.skipIf (s.held.get k)) := by
  simp only [exec, execSkp, keyOf_ok.2 hk]

theorem exec_sknp_of_key {x : Reg} {s : State} {k : Fin 16} (hk : (s.reg x).toNat = k.val) :
    exec (.sknp x) s = .next (s.skipIf (!s.held.get k)) := by
  simp only [exec, execSknp, keyOf_ok.2 hk]

theorem exec_skp_of_no_key {x : Reg} {s : State} (hx : 15 < (s.reg x).toNat) :
    exec (.skp x) s = .fault (.keyRange (s.pc - 2) (s.reg x)) := by
  simp only [exec, execSkp, keyOf_error.2 ⟨hx, rfl⟩]
  rfl

theorem exec_sknp_of_no_key {x : Reg} {s : State} (hx : 15 < (s.reg x).toNat) :
    exec (.sknp x) s = .fault (.keyRange (s.pc - 2) (s.reg x)) := by
  simp only [exec, execSknp, keyOf_error.2 ⟨hx, rfl⟩]
  rfl

/-- A skip on the negated condition (R191). -/
theorem skipIf_not_eq (s : State) (c : Bool) : s.skipIf (!c) = { s with pc := if c then s.pc else s.pc + 2 } := by
  cases c <;> rfl

/-- Settles O35: for a key each is a `skipIf` on its held flag, and above 15 each raises the error. -/
theorem keySkipsReadTheHeldFlag : Obligations.KeySkipsReadTheHeldFlag := by
  intro x s
  refine ⟨fun k hk => ⟨?_, ?_⟩, fun hx => ?_⟩
  · rw [exec_skp_of_key hk, skipIf_eq]
  · rw [exec_sknp_of_key hk, skipIf_not_eq]
  · obtain ⟨hskp, hskpLeft⟩ := fault_and_stateLeft (exec_skp_of_no_key hx)
    exact ⟨hskp, hskpLeft, fault_and_stateLeft (exec_sknp_of_no_key hx)⟩

/-! ## FX0A (R193) -/

/-- The least released key, by its flag as the key instructions read it. -/
theorem leastReleased_of_least {s : State} {k : Fin 16} (hk : s.released.get k = true)
    (hleast : ∀ j : Fin 16, j < k → s.released.get j = false) : s.leastReleased = some k.val :=
  leastReleased_some.2 ⟨k.isLt, hk, fun j hj => hleast ⟨j, hj.trans k.isLt⟩ hj⟩

theorem leastReleased_of_none {s : State} (hnone : ∀ k : Fin 16, s.released.get k = false) : s.leastReleased = none :=
  leastReleased_none.2 fun k hk => hnone ⟨k, hk⟩

theorem exec_ldVxK_of_released {x : Reg} {s : State} {k : Nat} (h : s.leastReleased = some k) :
    exec (.ldVxK x) s = .next (s.setReg x (BitVec.ofNat 8 k)) := by
  simp only [exec, execLdVxK, h]

theorem exec_ldVxK_of_none {x : Reg} {s : State} (h : s.leastReleased = none) : exec (.ldVxK x) s = .next s.rewind := by
  simp only [exec, execLdVxK, h]

/-- A key's number fits a register. -/
theorem byte_ofNat_key (k : Fin 16) : (BitVec.ofNat 8 k.val : Byte).toNat = k.val :=
  Nat.mod_eq_of_lt (k.isLt.trans (by decide))

/-- Settles O37: with a least released key V[x] is written, with none PC goes back. -/
theorem keyWaitTakesTheLeastRelease : Obligations.KeyWaitTakesTheLeastRelease := fun _ _ =>
  ⟨fun k hk hleast => exec_of_setReg (P := (·.toNat = k.val)) (exec_ldVxK_of_released (leastReleased_of_least hk hleast))
      (byte_ofNat_key k),
    fun hnone => exec_ldVxK_of_none (leastReleased_of_none hnone)⟩

/-! ## The waiting step (R193, R246, R252) -/

theorem waiting_iff {s : State} : waiting s = true ↔
    s.pc.toNat ≤ 0xFFE ∧ s.wordAtPC &&& 0xF0FF#16 = 0xF00A#16 ∧ s.leastReleased = none := by
  simp [waiting, and_assoc]

/-- The rewind of FX0A takes back the fetch's advance (R193). -/
@[simp] theorem rewind_advance (s : State) : s.advance.rewind = s := by
  simp only [State.rewind, State.advance, State.setPC, BitVec.add_sub_cancel]

/-- Settles O38: the word is FX0A, no key is released, and the rewind takes the fetch's advance back. -/
theorem waitingStepChangesNothing : Obligations.WaitingStepChangesNothing := by
  intro s h
  obtain ⟨hpc, hword, hnone⟩ := waiting_iff.1 h
  have hr : inRange s.pc.toNat 2 = true := (inRange_iff _ _).2 (by simp only [Config.memSize]; omega)
  have hd : decode s.wordAtPC = some (.ldVxK (xOf s.wordAtPC)) := decode_of_encode_eq rfl (encXFN_of_mask hword)
  rw [step_of_decode hr hd, exec_ldVxK_of_none (s := s.advance) hnone, rewind_advance]

/-! ## The timers (R192, R194, R195) -/

/-- Settles O36: FX07 is one write of V[x], FX15 and FX18 are one write of a timer. -/
theorem timerMovesCopyTheRegister : Obligations.TimerMovesCopyTheRegister := fun x s =>
  ⟨⟨encodedAs_row rfl (Laws.RowFits.ldVxDT x), exec_of_setReg (P := (· = s.dt)) rfl rfl⟩,
    ⟨encodedAs_row rfl (Laws.RowFits.ldDTVx x), rfl⟩, encodedAs_row rfl (Laws.RowFits.ldSTVx x), rfl⟩

end Sys2Proof.Machine
end

section
/-!
PROOFS. The errors (R210 to R214) and the host's remaining operations (R221, R223, R244): the fault of each instruction that has
one as an equivalence, `at` as PC at the start of the step, the state an erring operation leaves, the timers' tick, and the pixels
of ReadDisplay.
-/

namespace Sys2Proof.Machine

/-! ## The errors of the execute phase (R211) -/

/-- A meaning that raises one error under a condition and otherwise completes. -/
theorem fault_iff_of_cases {r : Result} {p : Prop} {e f : Fault} (hfault : p → r = .fault e)
    (hnext : ¬ p → ∃ t, r = .next t) : r = .fault f ↔ p ∧ f = e := by
  by_cases hp : p
  · simp [hfault hp, hp, eq_comm]
  · obtain ⟨t, ht⟩ := hnext hp
    simp [ht, hp]

theorem inRange_of_not_not {a len : Nat} (h : ¬ ¬ (a < 4096 ∧ a + len ≤ 4096)) : inRange a len = true :=
  (inRange_iff a len).2 (not_not.1 h)

theorem exec_ret_fault_iff {s : State} {f : Fault} :
    exec .ret s = .fault f ↔ s.sp = 0 ∧ f = .stackUnderflow (s.pc - 2) :=
  fault_iff_of_cases (fun h => exec_ret_of_empty (congrArg Fin.val h)) fun h => by
    obtain ⟨k, hk⟩ := Nat.exists_eq_succ_of_ne_zero fun h0 => h (Fin.ext h0)
    exact ⟨_, exec_ret_of_used (by omega) hk⟩

theorem exec_call_fault_iff {nnn : Addr12} {s : State} {f : Fault} :
    exec (.call nnn) s = .fault f ↔ s.sp = 16 ∧ f = .stackOverflow (s.pc - 2) :=
  fault_iff_of_cases (fun h => exec_call_of_full nnn (congrArg Fin.val h)) fun h =>
    ⟨_, exec_call_of_room nnn (Nat.lt_of_le_of_ne (Nat.le_of_lt_succ s.sp.isLt) fun h16 => h (Fin.ext h16))⟩

theorem exec_drw_fault_iff {x y : Reg} {n : Nat} {s : State} {f : Fault} : exec (.drw x y n) s = .fault f ↔
    ¬ (s.i.toNat < 4096 ∧ s.i.toNat + n ≤ 4096) ∧ f = .memRange (s.pc - 2) s.i.toNat n :=
  fault_iff_of_cases (fun h => exec_drw_of_not_inRange x y (inRange_eq_false h)) fun h =>
    ⟨_, exec_drw_of_inRange x y (inRange_of_not_not h)⟩

theorem exec_ldB_fault_iff {x : Reg} {s : State} {f : Fault} : exec (.ldB x) s = .fault f ↔
    ¬ (s.i.toNat < 4096 ∧ s.i.toNat + 3 ≤ 4096) ∧ f = .memRange (s.pc - 2) s.i.toNat 3 :=
  fault_iff_of_cases (fun h => exec_ldB_of_not_inRange (inRange_eq_false h)) fun h =>
    ⟨_, exec_ldB_of_inRange (inRange_of_not_not h)⟩

theorem exec_storeRegs_fault_iff {x : Reg} {s : State} {f : Fault} : exec (.storeRegs x) s = .fault f ↔
    ¬ (s.i.toNat < 4096 ∧ s.i.toNat + (x.val + 1) ≤ 4096) ∧ f = .memRange (s.pc - 2) s.i.toNat (x.val + 1) :=
  fault_iff_of_cases (fun h => exec_storeRegs_of_not_inRange (inRange_eq_false h)) fun h =>
    ⟨_, exec_storeRegs_of_inRange (inRange_of_not_not h)⟩

theorem exec_loadRegs_fault_iff {x : Reg} {s : State} {f : Fault} : exec (.loadRegs x) s = .fault f ↔
    ¬ (s.i.toNat < 4096 ∧ s.i.toNat + (x.val + 1) ≤ 4096) ∧ f = .memRange (s.pc - 2) s.i.toNat (x.val + 1) :=
  fault_iff_of_cases (fun h => exec_loadRegs_of_not_inRange (inRange_eq_false h)) fun h =>
    ⟨_, exec_loadRegs_of_inRange (inRange_of_not_not h)⟩

theorem exec_skp_fault_iff {x : Reg} {s : State} {f : Fault} :
    exec (.skp x) s = .fault f ↔ 15 < (s.reg x).toNat ∧ f = .keyRange (s.pc - 2) (s.reg x) :=
  fault_iff_of_cases exec_skp_of_no_key fun h =>
    ⟨_, exec_skp_of_key (k := ⟨(s.reg x).toNat, Nat.lt_succ_of_le (Nat.le_of_not_lt h)⟩) rfl⟩

theorem exec_sknp_fault_iff {x : Reg} {s : State} {f : Fault} :
    exec (.sknp x) s = .fault f ↔ 15 < (s.reg x).toNat ∧ f = .keyRange (s.pc - 2) (s.reg x) :=
  fault_iff_of_cases exec_sknp_of_no_key fun h =>
    ⟨_, exec_sknp_of_key (k := ⟨(s.reg x).toNat, Nat.lt_succ_of_le (Nat.le_of_not_lt h)⟩) rfl⟩

/-- FX0A waits rather than fail (R193). -/
theorem exec_ldVxK_ne_fault (x : Reg) (s : State) (f : Fault) : exec (.ldVxK x) s ≠ .fault f := by
  cases h : s.leastReleased with
  | some k => exact exec_ldVxK_of_released h ▸ nofun
  | none => exact exec_ldVxK_of_none h ▸ nofun

/-- Settles O10: the instructions of R211's table by their equivalences; every other one completes. -/
theorem executeFaultsExactlyAsListed : Obligations.ExecuteFaultsExactlyAsListed := by
  intro i s f
  cases i with
  | ret => simp [exec_ret_fault_iff]
  | call nnn => simp [exec_call_fault_iff]
  | drw x y n => simp [exec_drw_fault_iff]
  | ldB x => simp [exec_ldB_fault_iff]
  | storeRegs x => simp [exec_storeRegs_fault_iff]
  | loadRegs x => simp [exec_loadRegs_fault_iff]
  | skp x => simp [exec_skp_fault_iff]
  | sknp x => simp [exec_sknp_fault_iff]
  | ldVxK x => simp [exec_ldVxK_ne_fault]
  | _ => exact ⟨nofun, by simp⟩

/-! ## What an error reports and what it leaves (R210, R212) -/

/-- An error of the execute phase reports the address of the instruction (R210). -/
theorem exec_fault_pcAt {i : Instr} {s : State} {f : Fault} (h : exec i s = .fault f) : f.pcAt = s.pc - 2 := by
  obtain ⟨-, -, rfl⟩ | ⟨_, -, -, rfl⟩ | ⟨_, _, _, -, -, rfl⟩ | ⟨_, -, -, rfl⟩ | ⟨_, -, -, rfl⟩ | ⟨_, -, -, rfl⟩ :=
    (executeFaultsExactlyAsListed i s f).1 h <;> rfl

/-- Whatever phase a step's error is of, it reports PC at the start of the step (R210). -/
theorem step_fault_pcAt {s : State} {f : Fault} (h : step s = .fault f) : f.pcAt = s.pc := by
  cases hr : inRange s.pc.toNat 2 with
  | false =>
    cases (step_of_no_fetch hr).symm.trans h
    rfl
  | true =>
    cases hd : decode s.wordAtPC with
    | none =>
      cases (step_of_invalid hr hd).symm.trans h
      rfl
    | some i =>
      have hx : exec i s.advance = .fault f := (step_of_decode hr hd).symm.trans h
      exact (exec_fault_pcAt hx).trans (BitVec.add_sub_cancel s.pc 2)

theorem stepLeft_of_no_fetch {s : State} (hr : inRange s.pc.toNat 2 = false) : stepLeft s = s := by
  simp only [stepLeft, fetch_error.2 ⟨hr, rfl⟩]

theorem stepLeft_of_fault {s : State} {f : Fault} (hr : inRange s.pc.toNat 2 = true) (h : step s = .fault f) :
    stepLeft s = s.advance := by
  simp only [stepLeft, fetch_ok.2 ⟨hr, rfl, rfl⟩, h, stateLeft]

theorem hostOp_step_of_fault {s : State} {f : Fault} {rnd : Byte} (h : step (s.withRnd rnd) = .fault f) :
    hostOp (.step rnd) s = (.stepError f, stepWithLeft rnd s) := by
  simp only [hostOp, stepWith, h]

/-- Step(RND) reports the errors of `step` and no other. -/
theorem step_of_stepError {s : State} {f : Fault} {rnd : Byte} (h : (hostOp (.step rnd) s).1 = .stepError f) :
    step (s.withRnd rnd) = .fault f := by
  cases hs : step (s.withRnd rnd) with
  | next t => exact absurd (hostOp_step_of_next hs ▸ h) nofun
  | fault g =>
    cases hostOp_step_of_fault hs ▸ h
    rfl
  | refused r => exact absurd hs (step_ne_refused _ r)

/-- After a failed fetch Step(RND) leaves the state as it was: the byte's place is given back too (R212 (a), R224). -/
theorem stepWithLeft_of_no_fetch {s : State} (rnd : Byte) (hr : inRange s.pc.toNat 2 = false) : stepWithLeft rnd s = s := by
  rw [stepWithLeft, stepLeft_of_no_fetch (s := s.withRnd rnd) hr]
  rfl

/-- After a later error Step(RND) leaves the fetch's advance only (R212 (b), R224). -/
theorem stepWithLeft_of_fault {s : State} {f : Fault} {rnd : Byte} (hr : inRange s.pc.toNat 2 = true)
    (h : step (s.withRnd rnd) = .fault f) : stepWithLeft rnd s = { s with pc := s.pc + 2 } := by
  rw [stepWithLeft, stepLeft_of_fault (s := s.withRnd rnd) hr h]
  rfl

/-- A host write that reports an error has written nothing (R212 (c)). -/
theorem replyWrite_state_of_error {s : State} {r : Except Error State} {e : Error}
    (h : (replyWrite s r).1 = .error e) : (replyWrite s r).2 = s := by
  cases r with
  | error e' => rfl
  | ok t => cases h

/-- The reply of Step(RND) is never the error of another operation (R210). -/
theorem hostOp_step_ne_error (rnd : Byte) (s : State) (e : Error) : (hostOp (.step rnd) s).1 ≠ .error e := by
  simp only [hostOp]
  split <;> nofun

/-- An error of an operation other than Step leaves the state as it was (R212 (c)). -/
theorem hostOp_state_of_error {op : HostOp} {s : State} {e : Error} (h : (hostOp op s).1 = .error e) :
    (hostOp op s).2 = s := by
  cases op with
  | replaceMemory | writeByte | writeSlice | loadProgram => exact replyWrite_state_of_error h
  | readByte a => exact hostOp_readByte_state a s
  | readSlice a len => exact hostOp_readSlice_state a len s
  | step rnd => exact absurd h (hostOp_step_ne_error rnd s e)
  | reset | setHeld | setReleased | tickTimers | readDisplay | setQuirk => cases h

/-- Settles O11: the reported error is the step's, and the state is the one its phase leaves. -/
theorem errorsLeaveOnlyTheFetchAdvance : Obligations.ErrorsLeaveOnlyTheFetchAdvance := by
  intro s
  refine ⟨fun b f h => ?_, fun _ _ => hostOp_state_of_error⟩
  have hf : step (s.withRnd b) = .fault f := step_of_stepError h
  rw [hostOp_step_of_fault hf]
  refine ⟨step_fault_pcAt (s := s.withRnd b) hf, fun hr => ⟨stepWithLeft_of_no_fetch b hr, ?_⟩, fun hr =>
    stepWithLeft_of_fault hr hf⟩
  cases (step_of_no_fetch (s := s.withRnd b) hr).symm.trans hf
  rfl

/-! ## Nothing loaded (R244) -/

theorem wordAtPC_of_empty {s : State} (hm : s.mem = []) : s.wordAtPC = 0x0000#16 := by
  rw [State.wordAtPC, hm, Memory.get_nil, Memory.get_nil]
  decide

/-- On an empty memory any fetch that succeeds reads 0x0000, which is no instruction (R86). -/
theorem step_of_empty {s : State} (hm : s.mem = []) (hr : inRange s.pc.toNat 2 = true) :
    step s = .fault (.invalidOpcode s.pc 0x0000#16) := by
  have hw : s.wordAtPC = 0x0000#16 := wordAtPC_of_empty hm
  have hd : decode s.wordAtPC = none := hw ▸ (by decide)
  rw [step_of_invalid hr hd, hw]

/-- Settles O53: the first step is one on an empty memory, with PC at PROGRAM_START. -/
theorem firstStepWithNothingLoaded : Obligations.FirstStepWithNothingLoaded := by
  intro size q rnd
  have hf : step ((construct size q).withRnd rnd) = .fault (.invalidOpcode 0x200 0x0000) := step_of_empty rfl rfl
  rw [hostOp_step_of_fault hf, stepWithLeft_of_fault rfl hf]
  rfl

/-! ## The timers' tick (R221) -/

theorem tick_toNat (b : Byte) : (tick b).toNat = b.toNat - 1 := by
  unfold tick
  split <;> bv_omega

/-- Settles O57: each timer is ticked once. -/
theorem tickCountsBothTimersDown : Obligations.TickCountsBothTimersDown := fun s =>
  ⟨tickTimers s, rfl, rfl, tick_toNat s.dt, tick_toNat s.st⟩

/-! ## The pixels in row-major order (R223) -/

/-- Blocks of one length w, one after another: element r * w + c is element c of block r. -/
theorem getElem?_flatMap_of_length {α β : Type} {g : α → List β} {w : Nat} (hg : ∀ a, (g a).length = w) (l : List α)
    {r c : Nat} (hr : r < l.length) (hc : c < w) : (l.flatMap g)[r * w + c]? = (g l[r])[c]? := by
  induction l generalizing r with
  | nil => cases hr
  | cons a l ih =>
    cases r with
    | zero => simp [List.getElem?_append_left, hg, hc]
    | succ r =>
      have hle : (g a).length ≤ (r + 1) * w + c := by rw [hg, Nat.succ_mul]; omega
      have hsub : (r + 1) * w + c - (g a).length = r * w + c := by rw [hg, Nat.succ_mul]; omega
      rw [List.flatMap_cons, List.getElem?_append_right hle, hsub, ih (Nat.lt_of_succ_lt_succ hr), List.getElem_cons_succ]

theorem Raster.view_length {w h : Nat} (d : Raster w h) : d.view.length = w * h := by
  simp [Raster.view, List.length_flatMap, Nat.mul_comm]

theorem Raster.view_getElem? {w h : Nat} (d : Raster w h) {c r : Nat} (hc : c < w) (hr : r < h) :
    d.view[r * w + c]? = some (d.pixel c r) := by
  rw [Raster.view, getElem?_flatMap_of_length (w := w) (by simp) _ (by simpa using hr) hc, Raster.pixel_of_lt d c hr]
  simp [hc]

/-- Settles O59: ReadDisplay gives the view of the raster. -/
theorem displayViewIsRowMajor : Obligations.DisplayViewIsRowMajor := fun s =>
  ⟨s.disp.px.view, rfl, s.disp.px.view_length, fun _ _ ⟨hc, hr⟩ => s.disp.px.view_getElem? hc hr⟩

end Sys2Proof.Machine
end
